-- ==== Sys2Proof/Word.lean ====
section
/-! DEFINITION. The value type of the machine. A cell, a parameter, IP, RB, an input and an output are
mathematical integers of unbounded magnitude (10_state.md R22; 00_scope.md R7), so each is Lean's `Int`
and its plainest arithmetic is Lean's own `+`, `*`, `<` and `=`. There is no two's-complement view of a
cell, so no bit vector occurs in this model. The type is written `Int` everywhere and given no second
name, because `omega` does not look through one. -/
end

