-- ==== Sys2Proof/Config.lean ====
section
/-! DEFINITION. The implementation parameters of 00_scope.md R6. Each is unbounded (`none`) in the
reference hardware, and a finite realisation gives it a number. The spec gives every result of every
instruction, so there is no free value here. The checks that use the parameters stand in Machine/Ops.lean. -/

namespace Sys2Proof

/-- The four parameters of 00_scope.md R6, "a configuration argument, defaulting to that value". -/
structure Config where
  /-- CELL_BITS: `some W` makes a value outside the signed W-bit range a ValueOverflow (R154). -/
  cellBits : Option Nat := none
  /-- ADDR_LIMIT: one more than the highest usable address (R155). -/
  addrLimit : Option Nat := none
  /-- IN_DEPTH: the capacity of the input queue (R162). -/
  inDepth : Option Nat := none
  /-- OUT_DEPTH: the capacity of the untaken part of the output log (R111). -/
  outDepth : Option Nat := none
  deriving DecidableEq, Repr

/-- The reference hardware: every parameter unbounded (00_scope.md R6, column "this hardware"). -/
def Config.reference : Config := {}

/-- A realisation the rules make sense for: a finite CELL_BITS holds the values 0 and 1 that LT and EQ
write, which the spec says never overflow (43_compare.md R130; log 12). -/
def Config.wf (cfg : Config) : Bool :=
  match cfg.cellBits with
  | none => true
  | some w => decide (2 ≤ w)

end Sys2Proof
end

