-- ==== Sys2Proof/Syntax.lean ====
section
/-! DEFINITION. The ten instructions of 30_encoding.md R72, one constructor per row of
spec/opcode_table.json, over parameters that carry a mode and a raw value. -/

namespace Sys2Proof

/-- The three parameter modes of 30_encoding.md R74. -/
inductive Mode where
  | position   -- 0: the raw value is an address
  | immediate  -- 1: the raw value is the operand
  | relative   -- 2: the raw value plus RB is an address
  deriving DecidableEq, Repr

/-- The role of a parameter (30_encoding.md R72): read operand or write target. -/
inductive Role where
  | read
  | write
  deriving DecidableEq, Repr

/-- A parameter: its mode digit and the raw value of its cell, any integer (30_encoding.md R77). -/
structure Param where
  mode : Mode
  raw : Int
  deriving DecidableEq, Repr

/-- The base opcodes of 30_encoding.md R72. -/
inductive BaseOp where
  | add | mul | inp | out | jt | jf | lt | eq | arb | halt
  deriving DecidableEq, Repr

/-- An instruction with its parameters in cell order (30_encoding.md R70, R72). A write target may
carry any mode here; WellFormed refuses an immediate one, and so does the decoder (R79). -/
inductive Instr where
  | add (a b dst : Param)  -- ADD, opcode 1
  | mul (a b dst : Param)  -- MUL, opcode 2
  | inp (dst : Param)      -- IN, opcode 3
  | out (a : Param)        -- OUT, opcode 4
  | jt (a t : Param)       -- JT, opcode 5
  | jf (a t : Param)       -- JF, opcode 6
  | lt (a b dst : Param)   -- LT, opcode 7
  | eq (a b dst : Param)   -- EQ, opcode 8
  | arb (a : Param)        -- ARB, opcode 9
  | halt                   -- HALT, opcode 99
  deriving DecidableEq, Repr

end Sys2Proof
end

