-- ==== Sys2Proof/WellFormed.lean ====
section
/-! DEFINITION. Which terms of `Instr` the encoding admits: the mode of a write target is never
immediate (30_encoding.md R76, R78). Read parameters admit all three modes, and a raw value is any
integer (R77), so there is nothing else to check. -/

namespace Sys2Proof

/-- The modes a role admits (30_encoding.md R78: read modes in {0,1,2}, write modes in {0,2}). -/
def Role.admits : Role → Mode → Bool
  | .read, _ => true
  | .write, .position => true
  | .write, .immediate => false
  | .write, .relative => true

/-- The check of one instruction: every write target's mode is admitted. -/
def Instr.wf : Instr → Bool
  | .add _ _ dst => Role.write.admits dst.mode
  | .mul _ _ dst => Role.write.admits dst.mode
  | .inp dst => Role.write.admits dst.mode
  | .out _ => true
  | .jt _ _ => true
  | .jf _ _ => true
  | .lt _ _ dst => Role.write.admits dst.mode
  | .eq _ _ dst => Role.write.admits dst.mode
  | .arb _ => true
  | .halt => true

end Sys2Proof
end

