-- ==== Sys2Proof/Decode.lean ====
section
/-! DEFINITION. The instruction_decoder (10_state.md R34): the opcode table of 30_encoding.md R72, the
decimal fields of an opcode cell (R71), the decoder with its two named rejections (R79), total on any
list of cells, and after it the encoder written from the same table (R78, R84). -/

namespace Sys2Proof

/-- The opcode number of each row of 30_encoding.md R72. -/
def BaseOp.code : BaseOp → Nat
  | .add => 1
  | .mul => 2
  | .inp => 3
  | .out => 4
  | .jt => 5
  | .jf => 6
  | .lt => 7
  | .eq => 8
  | .arb => 9
  | .halt => 99

/-- The role of each parameter, in cell order (30_encoding.md R72, column "roles"). -/
def BaseOp.roles : BaseOp → List Role
  | .add => [.read, .read, .write]
  | .mul => [.read, .read, .write]
  | .inp => [.write]
  | .out => [.read]
  | .jt => [.read, .read]
  | .jf => [.read, .read]
  | .lt => [.read, .read, .write]
  | .eq => [.read, .read, .write]
  | .arb => [.read]
  | .halt => []

/-- NPARAMS of 30_encoding.md R79: the parameter count `n` of R72. -/
def BaseOp.paramCount : BaseOp → Nat
  | .add => 3
  | .mul => 3
  | .inp => 1
  | .out => 1
  | .jt => 2
  | .jf => 2
  | .lt => 3
  | .eq => 3
  | .arb => 1
  | .halt => 0

/-- The width `1 + n` of an instruction in cells (30_encoding.md R73). -/
def BaseOp.width (op : BaseOp) : Nat := 1 + op.paramCount

/-- The base opcode a number selects, if any (00_scope.md R3: ten opcodes and no other). -/
def BaseOp.ofCode : Nat → Option BaseOp
  | 1 => some .add
  | 2 => some .mul
  | 3 => some .inp
  | 4 => some .out
  | 5 => some .jt
  | 6 => some .jf
  | 7 => some .lt
  | 8 => some .eq
  | 9 => some .arb
  | 99 => some .halt
  | _ => none

/-- The mode digit of each mode (30_encoding.md R74). -/
def Mode.digit : Mode → Nat
  | .position => 0
  | .immediate => 1
  | .relative => 2

/-- The mode a digit stands for; 3 to 9 are invalid (30_encoding.md R74). -/
def Mode.ofDigit : Nat → Option Mode
  | 0 => some .position
  | 1 => some .immediate
  | 2 => some .relative
  | _ => none

/-- `digit(c, k)` of 00_scope.md R8: the k-th decimal digit, counted from the least significant. -/
def digit (c k : Nat) : Nat := c / 10 ^ k % 10

/-- The two ways the decoder rejects an opcode cell (30_encoding.md R79). -/
inductive DecodeError where
  | illegalOpcode (c : Int)         -- negative, or `c mod 100` in no row of R72
  | invalidParameterMode (c : Int)  -- a bad mode digit, an immediate write target, or HIGH not 0
  deriving DecidableEq, Repr

/-- The ways a list of cells can fail to begin with an instruction. The machine's fetch reads every
parameter cell from memory, so only a bare list can be too short. -/
inductive CellsError where
  | rejected (e : DecodeError)
  | missingCells
  deriving DecidableEq, Repr

/-- What the decoder reads from an opcode cell: `(OP, m1..mn)` of 30_encoding.md R79. -/
structure OpcodeFields where
  op : BaseOp
  modes : List Mode
  deriving DecidableEq, Repr

/-- The mode digits of the parameters with these roles, the first at digit `k` (30_encoding.md R79's
loop): `none` for a digit outside {0,1,2} or an immediate write target. -/
def decodeModes (c : Nat) : Nat → List Role → Option (List Mode)
  | _, [] => some []
  | k, role :: roles =>
    match Mode.ofDigit (digit c k) with
    | none => none
    | some m =>
      if role.admits m then
        match decodeModes c (k + 1) roles with
        | none => none
        | some ms => some (m :: ms)
      else none

/-- `decode(c)` of 30_encoding.md R79, its checks in its order: the sign, the base opcode, the mode
digits, then HIGH = c div 10^(n+2). -/
def decodeOpcode (c : Int) : Except DecodeError OpcodeFields :=
  if c < 0 then .error (.illegalOpcode c)
  else
    match BaseOp.ofCode (c.toNat % 100) with
    | none => .error (.illegalOpcode c)
    | some op =>
      match decodeModes c.toNat 2 op.roles with
      | none => .error (.invalidParameterMode c)
      | some modes =>
        if c.toNat / 10 ^ (op.paramCount + 2) = 0 then .ok ⟨op, modes⟩
        else .error (.invalidParameterMode c)

/-- Parameter `i` (from 0) of an instruction: its mode digit and its cell (30_encoding.md R11's `p`, `m`). -/
def paramAt (modes : List Mode) (raws : List Int) (i : Nat) : Param :=
  ⟨modes.getD i .position, raws.getD i 0⟩

/-- The instruction with these fields and these raw parameter cells (30_encoding.md R70). -/
def OpcodeFields.assemble (f : OpcodeFields) (raws : List Int) : Instr :=
  let p := paramAt f.modes raws
  match f.op with
  | .add => .add (p 0) (p 1) (p 2)
  | .mul => .mul (p 0) (p 1) (p 2)
  | .inp => .inp (p 0)
  | .out => .out (p 0)
  | .jt => .jt (p 0) (p 1)
  | .jf => .jf (p 0) (p 1)
  | .lt => .lt (p 0) (p 1) (p 2)
  | .eq => .eq (p 0) (p 1) (p 2)
  | .arb => .arb (p 0)
  | .halt => .halt

/-- The decoder on a list of cells: the instruction at its head and the cells after it
(30_encoding.md R70, R73: the length is known from the opcode cell alone). -/
def decode : List Int → Except CellsError (Instr × List Int)
  | [] => .error .missingCells
  | c :: cells =>
    match decodeOpcode c with
    | .error e => .error (.rejected e)
    | .ok f =>
      if cells.length < f.op.paramCount then .error .missingCells
      else .ok (f.assemble (cells.take f.op.paramCount), cells.drop f.op.paramCount)

/-- The base opcode of an instruction (30_encoding.md R72). -/
def Instr.op : Instr → BaseOp
  | .add _ _ _ => .add
  | .mul _ _ _ => .mul
  | .inp _ => .inp
  | .out _ => .out
  | .jt _ _ => .jt
  | .jf _ _ => .jf
  | .lt _ _ _ => .lt
  | .eq _ _ _ => .eq
  | .arb _ => .arb
  | .halt => .halt

/-- The parameters of an instruction, in cell order (30_encoding.md R72). -/
def Instr.params : Instr → List Param
  | .add a b dst => [a, b, dst]
  | .mul a b dst => [a, b, dst]
  | .inp dst => [dst]
  | .out a => [a]
  | .jt a t => [a, t]
  | .jf a t => [a, t]
  | .lt a b dst => [a, b, dst]
  | .eq a b dst => [a, b, dst]
  | .arb a => [a]
  | .halt => []

/-- The mode digits' part of an opcode cell: 100*m1 + 1000*m2 + 10000*m3 (30_encoding.md R78), the
modes the format does not use being 0. The first parameter of the list stands at digit `k`. -/
def encodeModes : Nat → List Param → Nat
  | _, [] => 0
  | k, p :: ps => p.mode.digit * 10 ^ k + encodeModes (k + 1) ps

/-- The opcode cell of an instruction: OP + 100*m1 + 1000*m2 + 10000*m3 (30_encoding.md R78, R84). -/
def opcodeCell (op : BaseOp) (params : List Param) : Int :=
  ((op.code + encodeModes 2 params : Nat) : Int)

/-- The cells of an instruction: its opcode cell and then its raw parameters (30_encoding.md R84,
"one opcode cell ... followed by the raw parameter values"). -/
def encode (i : Instr) : List Int :=
  opcodeCell i.op i.params :: i.params.map Param.raw

/-- The host's question about one row of the opcode table. The table's numbers are decimal opcode-cell
values, not bits (30_encoding.md R78), so `w` is the VALUE of the opcode cell, `nbits` carries nothing,
and the parameter cells are 0 (log 11). -/
def decodeTableWord (_nbits w : Nat) : Option Instr :=
  match decode [(w : Int), 0, 0, 0] with
  | .error _ => none
  | .ok (i, _) => some i

end Sys2Proof
end

