-- ==== Sys2Proof/Machine/State.lean ====
section
/-! DEFINITION. The architectural state of one core as plain data (10_state.md R20), its reset value
(10_state.md R38), the ways a step could stop, and the report a failing check makes. -/

namespace Sys2Proof.Machine

/-- The memory array (10_state.md R23): the (address, value) pairs of the cells that are not 0, by
rising address. A cell not listed reads 0. The unit is a whole integer cell, not a byte (20_memory.md
R53; log 1). The canonical form is `Memory.wf` in Machine/Ops.lean. -/
abbrev Memory := List (Nat × Int)

/-- STATUS (10_state.md R28). -/
inductive Status where
  | ready          -- 0: loaded, not yet run
  | running        -- 1: inside a RUN command
  | awaitingInput  -- 2: suspended at an IN with an empty queue
  | halted         -- 3: HALT executed; terminal
  | faulted        -- 4: a fatal error occurred; terminal
  deriving DecidableEq, Repr

/-- FAULT_CAUSE (10_state.md R29; 60_exceptions.md R150). -/
inductive FaultCause where
  | none                  -- 0
  | invalidAddress        -- 1
  | invalidParameterMode  -- 2
  | illegalOpcode         -- 3
  | valueOverflow         -- 4: finite CELL_BITS only
  | resourceExhausted     -- 5: finite ADDR_LIMIT or OUT_DEPTH only
  deriving DecidableEq, Repr

/-- FAULT_ORIGIN (10_state.md R29). -/
inductive FaultOrigin where
  | core  -- 0: raised by instruction execution
  | host  -- 1: raised by a PEEK or POKE command
  deriving DecidableEq, Repr

/-- What `raise <Fault>(info)` of 00_scope.md R9 carries to fault entry. -/
structure FaultReport where
  cause : FaultCause
  info : Int
  deriving DecidableEq, Repr

/-- The state of one core (10_state.md R20), and the realisation's parameters, which are an argument of
the launch (10_state.md R40) held constant here (log 2). -/
structure State where
  /-- The parameters of 00_scope.md R6; no step and no command changes them. -/
  cfg : Config
  /-- `Mem` (R23). -/
  mem : Memory
  /-- `IP` (R25). -/
  ip : Int
  /-- `RB` (R26). -/
  rb : Int
  /-- `STATUS` (R28). -/
  status : Status
  /-- `FAULT_CAUSE` (R29). -/
  faultCause : FaultCause
  /-- `FAULT_IP` (R29). -/
  faultIp : Int
  /-- `FAULT_INFO` (R29). -/
  faultInfo : Int
  /-- `FAULT_ORIGIN` (R29). -/
  faultOrigin : FaultOrigin
  /-- `InQ` (R30), the oldest value first. -/
  inQ : List Int
  /-- `OutLog` (R31), the oldest value first. -/
  outLog : List Int
  /-- `OutCur` (R31): how many entries of `OutLog` a clearing TAKE has handed over. -/
  outCur : Nat
  deriving DecidableEq, Repr

/-- The machine right after reset: every value of 10_state.md R38 after LOAD of the empty program
(70_reset_and_hazards.md R181), in the reference hardware (log 3). -/
def State.reset : State where
  cfg := Config.reference
  mem := []
  ip := 0
  rb := 0
  status := .ready
  faultCause := .none
  faultIp := 0
  faultInfo := 0
  faultOrigin := .core
  inQ := []
  outLog := []
  outCur := 0

/-- Faults that stop the model: there are none. Each of the five faults of 60_exceptions.md R150 is
TAKEN (R156): its outcome is a next state whose STATUS is FAULTED. Nobody raises a value of this type,
and that is safe: the spec gives every instruction an effect on every operand (log 8). -/
inductive Fault where
  deriving DecidableEq, Repr

/-- Refusals: the model's own, no behaviour of the hardware. -/
inductive Refusal where
  /-- An instruction that has no meaning in the model, raised only by an arm of `exec`; safe. Every
  instruction of the table has its meaning, so no arm raises it. -/
  | notModelled (mnemonic : String)
  deriving DecidableEq, Repr

end Sys2Proof.Machine
end

