-- ==== Sys2Proof/Machine/Ops.lean ====
section
/-! DEFINITION. The named operations over memory, registers and the I/O channel: memory_interface
(10_state.md R33), register_file (R35), the core's side of io_channel_fsm (R36), and fault entry
(60_exceptions.md R156) as the one operation every failing check goes through. -/

namespace Sys2Proof

/-! ### The realisation's checks -/

/-- `fits(v)` of 00_scope.md R9: -2^(W-1) ≤ v < 2^(W-1) when CELL_BITS = W, else always true. -/
def Config.fits (cfg : Config) (v : Int) : Bool :=
  match cfg.cellBits with
  | none => true
  | some w => decide (-(2 : Int) ^ (w - 1) ≤ v) && decide (v < (2 : Int) ^ (w - 1))

/-- Whether a non-negative address is below ADDR_LIMIT (20_memory.md R50). -/
def Config.inRange (cfg : Config) (a : Nat) : Bool :=
  match cfg.addrLimit with
  | none => true
  | some limit => decide (a < limit)

/-- Whether a queue of this length is full for this capacity (41_io.md R111; 60_exceptions.md R162). -/
def Config.full (depth : Option Nat) (length : Nat) : Bool :=
  match depth with
  | none => false
  | some d => decide (d ≤ length)

/-- Whether ADDR_LIMIT admits a program of this length (70_reset_and_hazards.md R180). -/
def Config.holdsProgram (cfg : Config) (length : Nat) : Bool :=
  match cfg.addrLimit with
  | none => true
  | some limit => decide (length ≤ limit)

end Sys2Proof

namespace Sys2Proof.Machine

/-! ### Register encodings -/

/-- The numeric encoding of STATUS (10_state.md R28). -/
def Status.code : Status → Nat
  | .ready => 0
  | .running => 1
  | .awaitingInput => 2
  | .halted => 3
  | .faulted => 4

/-- The numeric encoding of FAULT_CAUSE (10_state.md R29; 60_exceptions.md R150). -/
def FaultCause.code : FaultCause → Nat
  | .none => 0
  | .invalidAddress => 1
  | .invalidParameterMode => 2
  | .illegalOpcode => 3
  | .valueOverflow => 4
  | .resourceExhausted => 5

/-- The numeric encoding of FAULT_ORIGIN (10_state.md R29). -/
def FaultOrigin.code : FaultOrigin → Nat
  | .core => 0
  | .host => 1

/-! ### The memory array -/

/-- `Mem[a]`: the listed value, or 0 for a cell never loaded or written (10_state.md R23). -/
def Memory.read : Memory → Nat → Int
  | [], _ => 0
  | (b, w) :: m, a => if a = b then w else Memory.read m a

/-- `Mem[a] <- v`, every other cell unchanged (20_memory.md R52), kept in canonical form: a cell that
becomes 0 leaves the list. -/
def Memory.write : Memory → Nat → Int → Memory
  | [], a, v => if v = 0 then [] else [(a, v)]
  | (b, w) :: m, a, v =>
    if a < b then (if v = 0 then (b, w) :: m else (a, v) :: (b, w) :: m)
    else if a = b then (if v = 0 then m else (a, v) :: m)
    else (b, w) :: Memory.write m a v

/-- The canonical form: addresses strictly rising, no listed value 0. Equal memories are equal lists. -/
abbrev Memory.wf (m : Memory) : Prop :=
  m.Pairwise (fun x y => x.1 < y.1) ∧ ∀ c ∈ m, c.2 ≠ 0

/-- The memory that holds these cells from address `a` on and 0 elsewhere. -/
def Memory.ofCells : Nat → List Int → Memory
  | _, [] => []
  | a, v :: vs => if v = 0 then Memory.ofCells (a + 1) vs else (a, v) :: Memory.ofCells (a + 1) vs

/-- Writes these cells at `a`, `a + 1`, ... in turn. -/
def Memory.writeCells : Memory → Nat → List Int → Memory
  | m, _, [] => m
  | m, a, v :: vs => Memory.writeCells (Memory.write m a v) (a + 1) vs

/-! ### memory_interface -/

/-- The address checks of MemRead and MemWrite, in their order (20_memory.md R51, R52): below 0, then
at or above a finite ADDR_LIMIT. -/
def checkAddress (cfg : Config) (a : Int) : Except FaultReport Nat :=
  if a < 0 then .error ⟨.invalidAddress, a⟩
  else if cfg.inRange a.toNat then .ok a.toNat
  else .error ⟨.resourceExhausted, a⟩

/-- `MemRead(a, 1)` (20_memory.md R51). -/
def memRead (s : State) (a : Int) : Except FaultReport Int :=
  match checkAddress s.cfg a with
  | .error e => .error e
  | .ok n => .ok (s.mem.read n)

/-- The state with `v` in the cell at `a`, whose address has been checked. -/
def State.store (s : State) (a : Nat) (v : Int) : State := { s with mem := s.mem.write a v }

/-- `MemWrite(a, 1, v)` (20_memory.md R52). -/
def memWrite (s : State) (a v : Int) : Except FaultReport State :=
  match checkAddress s.cfg a with
  | .error e => .error e
  | .ok n => .ok (s.store n v)

/-! ### register_file -/

/-- `IP <- v`. -/
def State.setIp (s : State) (v : Int) : State := { s with ip := v }

/-- `RB <- v`. -/
def State.setRb (s : State) (v : Int) : State := { s with rb := v }

/-- `STATUS <- v`. -/
def State.setStatus (s : State) (v : Status) : State := { s with status := v }

/-- `if not fits(v): raise ValueOverflow(v)` (60_exceptions.md R154). -/
def checkFits (cfg : Config) (v : Int) : Except FaultReport Int :=
  if cfg.fits v then .ok v else .error ⟨.valueOverflow, v⟩

/-- The advanced instruction pointer `IP + width` (30_encoding.md R83), one of the values R154 checks. -/
def advancedIp (s : State) (width : Nat) : Except FaultReport Int := checkFits s.cfg (s.ip + width)

/-! ### io_channel_fsm, the core's side -/

/-- `OutLog.append(v)` (41_io.md R111). -/
def State.pushOut (s : State) (v : Int) : State := { s with outLog := s.outLog ++ [v] }

/-- `InQ` left with these values: the tail after a dequeue (41_io.md R110). -/
def State.setInQ (s : State) (q : List Int) : State := { s with inQ := q }

/-- `if |OutLog| - OutCur >= OUT_DEPTH: raise ResourceExhausted(a)` (41_io.md R111). -/
def checkOutSpace (s : State) (a : Int) : Except FaultReport Unit :=
  if Config.full s.cfg.outDepth (s.outLog.length - s.outCur) then .error ⟨.resourceExhausted, a⟩
  else .ok ()

/-- `suspend` (00_scope.md R9): the run ends with AWAITING_INPUT and nothing else changes (R110, R167). -/
def State.suspend (s : State) : State := s.setStatus .awaitingInput

/-! ### Faults -/

/-- Fault entry (60_exceptions.md R156): the record and STATUS are written unless the core is already
FAULTED, so the first fault is kept (R159). Nothing else changes and control vectors nowhere. -/
def enterFault (e : FaultReport) (origin : FaultOrigin) (s : State) : State :=
  if s.status = .faulted then s
  else { s with
    status := .faulted
    faultCause := e.cause
    faultIp := s.ip
    faultInfo := e.info
    faultOrigin := origin }

/-- One atomic transition (30_encoding.md R82; 00_scope.md R10): the state an effect computes, or fault
entry from the state before it, so that a failing instruction has had no effect (R157). -/
def atomically (s : State) (effect : Except FaultReport State) :
    Host.Outcome State Fault Refusal :=
  match effect with
  | .ok t => .next t
  | .error e => .next (enterFault e .core s)

end Sys2Proof.Machine
end

