-- ==== Sys2Proof/Machine/Operands.lean ====
section
/-! DEFINITION. Operand resolution in every form the spec gives (30_encoding.md R74 to R77): the read
operand `val(i)` and the write target `addr(i)` of 00_scope.md R11, and the operand lists of the
formats of 30_encoding.md R72 resolved in parameter order (R82). -/

namespace Sys2Proof.Machine

/-- The relative-mode address `p + RB`, a value R154 checks when it is computed (30_encoding.md R75,
R76; the check stands before the address checks: log 5). -/
def relativeAddress (s : State) (raw : Int) : Except FaultReport Int := checkFits s.cfg (raw + s.rb)

/-- `val(i)` of 30_encoding.md R75. -/
def readOperand (s : State) (p : Param) : Except FaultReport Int :=
  match p.mode with
  | .position => memRead s p.raw
  | .immediate => .ok p.raw
  | .relative =>
    match relativeAddress s p.raw with
    | .error e => .error e
    | .ok a => memRead s a

/-- `addr(i)` of 30_encoding.md R76, its address checked before any state changes. `c` is the opcode
cell, which an immediate write target reports; the decoder raises that one first (R79; log 9). -/
def writeAddress (s : State) (c : Int) (p : Param) : Except FaultReport Nat :=
  match p.mode with
  | .position => checkAddress s.cfg p.raw
  | .immediate => .error ⟨.invalidParameterMode, c⟩
  | .relative =>
    match relativeAddress s p.raw with
    | .error e => .error e
    | .ok a => checkAddress s.cfg a

/-- The two operands of format F2RR, in parameter order (30_encoding.md R72, R82). -/
def readTwo (s : State) (a b : Param) : Except FaultReport (Int × Int) :=
  match readOperand s a with
  | .error e => .error e
  | .ok x =>
    match readOperand s b with
    | .error e => .error e
    | .ok y => .ok (x, y)

/-- The operands of format F3RRW, in parameter order: two values and the write address (30_encoding.md
R72, R82). -/
def readTwoAndTarget (s : State) (c : Int) (a b dst : Param) :
    Except FaultReport (Int × Int × Nat) :=
  match readTwo s a b with
  | .error e => .error e
  | .ok (x, y) =>
    match writeAddress s c dst with
    | .error e => .error e
    | .ok d => .ok (x, y, d)

end Sys2Proof.Machine
end

