-- ==== Sys2Proof/Machine/Flags.lean ====
section
/-! DEFINITION. The core has no status flags and no condition codes (10_state.md R27). What stands in
their place: the truth value LT and EQ write to memory, and the condition JT and JF test on an operand. -/

namespace Sys2Proof.Machine

/-- `true` and `false` written into memory are the integers 1 and 0 (00_scope.md R7). -/
def truthCell (b : Bool) : Int := if b then 1 else 0

/-- The result of LT: exact signed comparison (43_compare.md R130). -/
def lessThan (x y : Int) : Int := truthCell (decide (x < y))

/-- The result of EQ: exact integer equality (43_compare.md R131). -/
def equals (x y : Int) : Int := truthCell (decide (x = y))

/-- The condition of JT: any non-zero value, negative ones included (42_jumps.md R120). -/
def firesOnTrue (x : Int) : Bool := decide (x ≠ 0)

/-- The condition of JF: exactly 0 (42_jumps.md R121). -/
def firesOnFalse (x : Int) : Bool := decide (x = 0)

end Sys2Proof.Machine
end

