-- ==== Sys2Proof/Machine/BaseAndHalt.lean ====
section
/-! DEFINITION. ARB and HALT (44_base_and_halt.md R140, R141). -/

namespace Sys2Proof.Machine

/-- The effect of ARB (44_base_and_halt.md R140): a relative operand is resolved with the old RB. -/
def adjustEffect (a : Param) (s : State) : Except FaultReport State :=
  match readOperand s a with
  | .error e => .error e
  | .ok x =>
    match checkFits s.cfg (s.rb + x) with
    | .error e => .error e
    | .ok rb =>
      match advancedIp s BaseOp.arb.width with
      | .error e => .error e
      | .ok ip => .ok ((s.setRb rb).setIp ip)

/-- ARB (44_base_and_halt.md R140): RB = RB + a. -/
def execArb (a : Param) (s : State) : Host.Outcome State Fault Refusal :=
  atomically s (adjustEffect a s)

/-- HALT (44_base_and_halt.md R141): STATUS = HALTED; IP and everything else unchanged. -/
def execHalt (s : State) : Host.Outcome State Fault Refusal :=
  atomically s (.ok (s.setStatus .halted))

end Sys2Proof.Machine
end

