-- ==== Sys2Proof/Machine/InputOutput.lean ====
section
/-! DEFINITION. IN and OUT (41_io.md R110 to R112). -/

namespace Sys2Proof.Machine

/-- The effect of IN (41_io.md R110). Every check comes before the queue is tested (60_exceptions.md
R158 item 7; log 7), so a faulting IN faults on an empty queue too and never consumes a value. -/
def inputEffect (dst : Param) (s : State) : Except FaultReport State :=
  match writeAddress s (opcodeCell .inp [dst]) dst with
  | .error e => .error e
  | .ok d =>
    match advancedIp s BaseOp.inp.width with
    | .error e => .error e
    | .ok ip =>
      match s.inQ with
      | [] => .ok s.suspend
      | v :: rest => .ok (((s.setInQ rest).store d v).setIp ip)

/-- IN (41_io.md R110): the oldest input to dst, or suspension when there is none. -/
def execIn (dst : Param) (s : State) : Host.Outcome State Fault Refusal :=
  atomically s (inputEffect dst s)

/-- The effect of OUT (41_io.md R111): the full-log check comes first, as in its pseudocode (log 6). -/
def outputEffect (a : Param) (s : State) : Except FaultReport State :=
  match readOperand s a with
  | .error e => .error e
  | .ok x =>
    match checkOutSpace s x with
    | .error e => .error e
    | .ok _ =>
      match advancedIp s BaseOp.out.width with
      | .error e => .error e
      | .ok ip => .ok ((s.pushOut x).setIp ip)

/-- OUT (41_io.md R111): append the operand to the output log. It never waits for the host. -/
def execOut (a : Param) (s : State) : Host.Outcome State Fault Refusal :=
  atomically s (outputEffect a s)

end Sys2Proof.Machine
end

