-- ==== Sys2Proof/Machine/Jumps.lean ====
section
/-! DEFINITION. JT and JF (42_jumps.md R120 to R122). -/

namespace Sys2Proof.Machine

/-- A conditional jump (42_jumps.md R120, R121): both operands are resolved, then IP is the target
exactly, negative ones too (R122), or IP + 3. A jump that fires does not compute IP + 3. -/
def conditionalJump (op : BaseOp) (fires : Int → Bool) (a t : Param) (s : State) :
    Except FaultReport State :=
  match readTwo s a t with
  | .error e => .error e
  | .ok (x, target) =>
    if fires x then .ok (s.setIp target)
    else
      match advancedIp s op.width with
      | .error e => .error e
      | .ok ip => .ok (s.setIp ip)

/-- JT (42_jumps.md R120): if a != 0, IP = target; else IP + 3. -/
def execJt (a t : Param) (s : State) : Host.Outcome State Fault Refusal :=
  atomically s (conditionalJump .jt firesOnTrue a t s)

/-- JF (42_jumps.md R121): if a == 0, IP = target; else IP + 3. -/
def execJf (a t : Param) (s : State) : Host.Outcome State Fault Refusal :=
  atomically s (conditionalJump .jf firesOnFalse a t s)

end Sys2Proof.Machine
end

