-- ==== Sys2Proof/Machine/ThreeOperand.lean ====
section
/-! DEFINITION. The four instructions of format F3RRW (30_encoding.md R72): ADD and MUL
(40_arithmetic.md R100 to R102), LT and EQ (43_compare.md R130, R131). -/

namespace Sys2Proof.Machine

/-- Format F3RRW: resolve both operands and the write target, compute the result, then one memory
write and IP + 4 (30_encoding.md R82, R83; 20_memory.md R58). The result's own check, where it has one,
stands before the check of IP + 4 (log 6). -/
def storeResult (op : BaseOp) (result : Int → Int → Except FaultReport Int) (a b dst : Param)
    (s : State) : Except FaultReport State :=
  match readTwoAndTarget s (opcodeCell op [a, b, dst]) a b dst with
  | .error e => .error e
  | .ok (x, y, d) =>
    match result x y with
    | .error e => .error e
    | .ok r =>
      match advancedIp s op.width with
      | .error e => .error e
      | .ok ip => .ok ((s.store d r).setIp ip)

/-- ADD (40_arithmetic.md R100): dst = a + b, exact, or ValueOverflow in a finite realisation. -/
def execAdd (a b dst : Param) (s : State) : Host.Outcome State Fault Refusal :=
  atomically s (storeResult .add (fun x y => checkFits s.cfg (x + y)) a b dst s)

/-- MUL (40_arithmetic.md R101): dst = a * b, exact, or ValueOverflow in a finite realisation. -/
def execMul (a b dst : Param) (s : State) : Host.Outcome State Fault Refusal :=
  atomically s (storeResult .mul (fun x y => checkFits s.cfg (x * y)) a b dst s)

/-- LT (43_compare.md R130): dst = 1 if a < b else 0; the result never overflows. -/
def execLt (a b dst : Param) (s : State) : Host.Outcome State Fault Refusal :=
  atomically s (storeResult .lt (fun x y => .ok (lessThan x y)) a b dst s)

/-- EQ (43_compare.md R131): dst = 1 if a == b else 0; the result never overflows. -/
def execEq (a b dst : Param) (s : State) : Host.Outcome State Fault Refusal :=
  atomically s (storeResult .eq (fun x y => .ok (equals x y)) a b dst s)

end Sys2Proof.Machine
end

