-- ==== Sys2Proof/Machine/Dispatch.lean ====
section
/-! DEFINITION. The execute part of the instruction cycle (30_encoding.md R82): one arm per
instruction of spec/opcode_table.json. -/

namespace Sys2Proof.Machine

def exec (i : Instr) (s : State) : Host.Outcome State Fault Refusal :=
  match i with
  | .add a b dst => Sys2Proof.Machine.execAdd a b dst s
  | .mul a b dst => Sys2Proof.Machine.execMul a b dst s
  | .inp dst => Sys2Proof.Machine.execIn dst s
  | .out a => Sys2Proof.Machine.execOut a s
  | .jt a t => Sys2Proof.Machine.execJt a t s
  | .jf a t => Sys2Proof.Machine.execJf a t s
  | .lt a b dst => Sys2Proof.Machine.execLt a b dst s
  | .eq a b dst => Sys2Proof.Machine.execEq a b dst s
  | .arb a => Sys2Proof.Machine.execArb a s
  | .halt => Sys2Proof.Machine.execHalt s

end Sys2Proof.Machine
end

