-- ==== Sys2Proof/Machine/Fetch.lean ====
section
/-! DEFINITION. Instruction fetch (30_encoding.md R82): the opcode cell at IP, its decoding, then the
parameter cells in increasing address order, all through MemRead (20_memory.md R62). -/

namespace Sys2Proof.Machine

/-- The fault a rejected opcode cell raises, its information being the cell (30_encoding.md R79;
60_exceptions.md R152, R153). -/
def decodeReport : DecodeError → FaultReport
  | .illegalOpcode c => ⟨.illegalOpcode, c⟩
  | .invalidParameterMode c => ⟨.invalidParameterMode, c⟩

/-- The cells at `a`, `a + 1`, ..., `n` of them, read in that order. -/
def fetchCells (s : State) (a : Int) : Nat → Except FaultReport (List Int)
  | 0 => .ok []
  | n + 1 =>
    match memRead s a with
    | .error e => .error e
    | .ok v =>
      match fetchCells s (a + 1) n with
      | .error e => .error e
      | .ok vs => .ok (v :: vs)

/-- Fetch, decode and parameter fetch of 30_encoding.md R82. -/
def fetchInstr (s : State) : Except FaultReport Instr :=
  match memRead s s.ip with
  | .error e => .error e
  | .ok c =>
    match decodeOpcode c with
    | .error e => .error (decodeReport e)
    | .ok f =>
      match fetchCells s (s.ip + 1) f.op.paramCount with
      | .error e => .error e
      | .ok raws => .ok (f.assemble raws)

/-- An opcode cell of value `w` and three parameter cells of 0: the longest instruction is 4 cells wide
(30_encoding.md R72). -/
def placedCells (w : Nat) : List Int := [(w : Int), 0, 0, 0]

/-- The state with an opcode cell of value `w` and zero parameter cells at IP, and a RUN in progress
(60_exceptions.md R161), so that the next step fetches it (log 3, log 11). A negative IP names no cell,
and then there is nowhere to place it. -/
def placeAtIp (s : State) (w : Nat) : State :=
  if s.ip < 0 then s.setStatus .running
  else { s with mem := s.mem.writeCells s.ip.toNat (placedCells w), status := .running }

end Sys2Proof.Machine
end

