-- ==== Sys2Proof/Machine/Step.lean ====
section
/-! DEFINITION. One step of the instruction cycle (30_encoding.md R82), and the host's way to place an
instruction where the next step fetches. -/

namespace Sys2Proof.Machine

/-- One step. While STATUS = RUNNING it fetches, decodes and executes one instruction, atomically
(30_encoding.md R82); a failing fetch takes its fault (60_exceptions.md R156). In every other state the
core is idle and all state is retained (60_exceptions.md R174), until a host command (HostPort.lean).
STATUS is asked about here and not in `exec` (log 15). -/
def step (s : State) : Host.Outcome State Fault Refusal :=
  if s.status = .running then
    match fetchInstr s with
    | .error e => .next (enterFault e .core s)
    | .ok i => exec i s
  else .next s

/-- The state whose next step runs the instruction with opcode cell `w` and zero parameter cells. The
opcode table's numbers are values of a whole cell, so `nbits` carries nothing (log 11). -/
def State.withFetchWord (s : State) (_nbits w : Nat) : State := placeAtIp s w

end Sys2Proof.Machine
end

