-- ==== Sys2Proof/Machine/HostPort.lean ====
section
/-! DEFINITION. The host's side of io_channel_fsm and the six host commands (10_state.md R37;
60_exceptions.md R160 to R166; 70_reset_and_hazards.md R180). A command is an argument, not state
(10_state.md R40; log 3). -/

namespace Sys2Proof.Machine

/-- The six host commands (10_state.md R37). -/
inductive HostCommand where
  | load (program : List Int)
  | feed (v : Int)
  | run
  | take (clear : Bool)
  | peek (a : Int)
  | poke (a v : Int)
  deriving DecidableEq, Repr

/-- What RUN returns (60_exceptions.md R161); it never returns READY or RUNNING. -/
inductive RunResult where
  | awaitingInput
  | halted
  | faulted (cause : FaultCause) (ip info : Int) (origin : FaultOrigin)
  deriving DecidableEq, Repr

/-- The response of a command. -/
inductive Response where
  | ok
  | refused                        -- a finite realisation turns the command away, no state change
  | value (v : Int)               -- PEEK
  | outputs (vs : List Int)       -- TAKE
  | fault (cause : FaultCause)     -- PEEK or POKE at an invalid address
  | run (result : RunResult)       -- RUN
  deriving DecidableEq, Repr

/-- The state after LOAD(P): every value of 10_state.md R38, the realisation kept. -/
def State.loaded (cfg : Config) (program : List Int) : State :=
  { State.reset with cfg := cfg, mem := Memory.ofCells 0 program }

/-- LOAD(P), the only reset (70_reset_and_hazards.md R180). -/
def hostLoad (program : List Int) (s : State) : Response × State :=
  if program.all s.cfg.fits && s.cfg.holdsProgram program.length then
    (.ok, State.loaded s.cfg program)
  else (.refused, s)

/-- FEED(v) (60_exceptions.md R162): append at the tail of InQ, or REFUSED when finite and full or v
does not fit. It does not start execution. -/
def hostFeed (v : Int) (s : State) : Response × State :=
  if Config.full s.cfg.inDepth s.inQ.length || !s.cfg.fits v then (.refused, s)
  else (.ok, s.setInQ (s.inQ ++ [v]))

/-- TAKE(clear) (60_exceptions.md R163): the untaken outputs, oldest first; clearing moves the cursor. -/
def hostTake (clear : Bool) (s : State) : Response × State :=
  (.outputs (s.outLog.drop s.outCur), if clear then { s with outCur := s.outLog.length } else s)

/-- PEEK(a) (60_exceptions.md R164). The response to an invalid address names the fault, whatever STATUS
was (log 14). -/
def hostPeek (a : Int) (s : State) : Response × State :=
  match checkAddress s.cfg a with
  | .error e => (.fault e.cause, enterFault e .host s)
  | .ok n => (.value (s.mem.read n), s)

/-- POKE(a, v) (60_exceptions.md R165): the address checks come first, then the value's. -/
def hostPoke (a v : Int) (s : State) : Response × State :=
  match checkAddress s.cfg a with
  | .error e => (.fault e.cause, enterFault e .host s)
  | .ok n => if s.cfg.fits v then (.ok, s.store n v) else (.refused, s)

/-- What RUN returns in a state where it has stopped (60_exceptions.md R161): nothing in READY or
RUNNING. -/
def runResult (s : State) : Option RunResult :=
  match s.status with
  | .ready => none
  | .running => none
  | .awaitingInput => some .awaitingInput
  | .halted => some .halted
  | .faulted => some (.faulted s.faultCause s.faultIp s.faultInfo s.faultOrigin)

/-- "repeat Step while STATUS = RUNNING" (60_exceptions.md R161), at most `fuel` steps. `none` is "no
result": the fuel ran out while RUNNING (R171; log 4). -/
def runLoop : Nat → State → Option State
  | 0, s => if s.status = .running then none else some s
  | fuel + 1, s =>
    if s.status = .running then
      match step s with
      | .next t => runLoop fuel t
      | .fault r => nomatch r
      | .refused _ => none
    else some s

/-- RUN (60_exceptions.md R161): from READY or AWAITING_INPUT it sets RUNNING and steps; HALTED and
FAULTED answer at once with no state change (R159). -/
def hostRun (fuel : Nat) (s : State) : Option (Response × State) :=
  let stopped (t : State) := (runResult t).map fun r => (Response.run r, t)
  match s.status with
  | .ready => (runLoop fuel (s.setStatus .running)).bind stopped
  | .awaitingInput => (runLoop fuel (s.setStatus .running)).bind stopped
  | .halted => stopped s
  | .faulted => stopped s
  | .running => none

/-- One host command. While RUNNING the host has no move (60_exceptions.md R160; log 4): `none`, as for
a RUN whose fuel runs out. Fuel bounds RUN alone. -/
def command (fuel : Nat) (c : HostCommand) (s : State) : Option (Response × State) :=
  if s.status = .running then none
  else
    match c with
    | .load program => some (hostLoad program s)
    | .feed v => some (hostFeed v s)
    | .run => hostRun fuel s
    | .take clear => some (hostTake clear s)
    | .peek a => some (hostPeek a s)
    | .poke a v => some (hostPoke a v s)

/-- A sequence of host commands, each complete before the next is issued (60_exceptions.md R160), with
the responses in order. -/
def session (fuel : Nat) : List HostCommand → State → Option (List Response × State)
  | [], s => some ([], s)
  | c :: cs, s =>
    match command fuel c s with
    | none => none
    | some (r, t) =>
      match session fuel cs t with
      | none => none
      | some (rs, u) => some (r :: rs, u)

end Sys2Proof.Machine
end

