-- ==== Sys2Proof/Safety.lean ====
section
/-! DEFINITION. What a sound state of the core is: the invariant of 10_state.md's state over every
realisation of 00_scope.md R6, and the terms frames are stated in. The machine reads none of this. -/

namespace Sys2Proof

/-- Whether a queue of this length is within this capacity (00_scope.md R6). -/
def Config.within (depth : Option Nat) (length : Nat) : Bool :=
  match depth with
  | none => true
  | some d => decide (length ≤ d)

end Sys2Proof

namespace Sys2Proof.Machine

/-- Which fault kinds exist in a realisation (60_exceptions.md R150, column "exists in"). -/
def hasFault (cfg : Config) : FaultCause → Bool
  | .none => false
  | .invalidAddress => true
  | .invalidParameterMode => true
  | .illegalOpcode => true
  | .valueOverflow => cfg.cellBits.isSome
  | .resourceExhausted => cfg.addrLimit.isSome || cfg.outDepth.isSome

/-- The fault record of a core that is not FAULTED: its reset values, since only fault entry writes it
and only LOAD clears it (10_state.md R29). -/
abbrev State.recordClear (s : State) : Prop :=
  s.faultCause = .none ∧ s.faultIp = 0 ∧ s.faultInfo = 0 ∧ s.faultOrigin = .core

/-- The invariant of the core. -/
structure State.Inv (s : State) : Prop where
  /-- The realisation is one the rules make sense for (log 12). -/
  cfg_wf : s.cfg.wf = true
  /-- Memory is in its canonical form. -/
  mem_wf : s.mem.wf
  /-- Every cell that is not 0 lies below ADDR_LIMIT and fits CELL_BITS (00_scope.md R6). -/
  mem_fits : ∀ c ∈ s.mem, s.cfg.inRange c.1 = true ∧ s.cfg.fits c.2 = true
  ip_fits : s.cfg.fits s.ip = true
  rb_fits : s.cfg.fits s.rb = true
  inQ_fits : ∀ v ∈ s.inQ, s.cfg.fits v = true
  outLog_fits : ∀ v ∈ s.outLog, s.cfg.fits v = true
  /-- 0 ≤ OutCur ≤ |OutLog| (10_state.md R31). -/
  cursor : s.outCur ≤ s.outLog.length
  inQ_depth : Config.within s.cfg.inDepth s.inQ.length = true
  out_depth : Config.within s.cfg.outDepth (s.outLog.length - s.outCur) = true
  /-- The fault record is clear unless FAULTED. -/
  record_clear : s.status ≠ .faulted → s.recordClear
  /-- FAULTED names a fault kind that exists in this realisation (60_exceptions.md R150). -/
  record_cause : s.status = .faulted → hasFault s.cfg s.faultCause = true

/-! ### The terms of a frame -/

/-- Every cell reads as before. -/
abbrev sameMemory (s t : State) : Prop := ∀ a, t.mem.read a = s.mem.read a

/-- Every cell but the one at `d` reads as before. -/
abbrev sameMemoryExcept (d : Nat) (s t : State) : Prop := ∀ a, a ≠ d → t.mem.read a = s.mem.read a

/-- The fault record is as before. -/
abbrev sameRecord (s t : State) : Prop :=
  t.faultCause = s.faultCause ∧ t.faultIp = s.faultIp ∧ t.faultInfo = s.faultInfo ∧
    t.faultOrigin = s.faultOrigin

/-- The input queue, the output log and its cursor are as before. -/
abbrev sameChannels (s t : State) : Prop :=
  t.inQ = s.inQ ∧ t.outLog = s.outLog ∧ t.outCur = s.outCur

/-- The write target of an instruction that has one (30_encoding.md R72, role W). -/
def writeTarget : Instr → Option Param
  | .add _ _ dst => some dst
  | .mul _ _ dst => some dst
  | .inp dst => some dst
  | .out _ => none
  | .jt _ _ => none
  | .jf _ _ => none
  | .lt _ _ dst => some dst
  | .eq _ _ dst => some dst
  | .arb _ => none
  | .halt => none

/-- The cell an instruction stores to in this state, by the function its meaning resolves it with. -/
def storeAddress (i : Instr) (s : State) : Option Nat :=
  match writeTarget i with
  | none => none
  | some dst =>
    match writeAddress s (opcodeCell i.op i.params) dst with
    | .error _ => none
    | .ok d => some d

/-- What the rule of a storing instruction says of its operands' values: `none` unless both resolve. -/
def ofOperands (s : State) (a b : Param) (rule : Int → Int → Int) : Option Int :=
  match readOperand s a, readOperand s b with
  | .ok x, .ok y => some (rule x y)
  | .ok _, .error _ => none
  | .error _, _ => none

/-- The value an instruction stores, written from its own rule (40_arithmetic.md R100, R101; 41_io.md
R110; 43_compare.md R130, R131) and not through its meaning: `none` for one that stores nothing. -/
def storedValue (i : Instr) (s : State) : Option Int :=
  match i with
  | .add a b _ => ofOperands s a b fun x y => x + y
  | .mul a b _ => ofOperands s a b fun x y => x * y
  | .inp _ => s.inQ.head?
  | .out _ => none
  | .jt _ _ => none
  | .jf _ _ => none
  | .lt a b _ => ofOperands s a b fun x y => if x < y then 1 else 0
  | .eq a b _ => ofOperands s a b fun x y => if x = y then 1 else 0
  | .arb _ => none
  | .halt => none

/-- The report of a parameter that does not resolve in its role (30_encoding.md R75, R76). -/
def resolutionError (s : State) (c : Int) (role : Role) (p : Param) : Option FaultReport :=
  match role with
  | .read =>
    match readOperand s p with
    | .error e => some e
    | .ok _ => none
  | .write =>
    match writeAddress s c p with
    | .error e => some e
    | .ok _ => none

/-- The report of the first parameter, in parameter order, that does not resolve (30_encoding.md R82). -/
def firstResolutionError (i : Instr) (s : State) : Option FaultReport :=
  (i.op.roles.zip i.params).findSome? fun rp =>
    resolutionError s (opcodeCell i.op i.params) rp.1 rp.2

end Sys2Proof.Machine
end

