-- ==== Sys2Proof/Certificates/Slice0/Obligations.lean ====
section
/-! DEFINITION. The statements for the provers. Where a docstring names a decision D<n> of
92_eei_decisions.md or a log entry, the clause is the spec's own choice or the model's, not the source's. -/

open Sys2Proof Sys2Proof.Machine

namespace Sys2Proof

/-- The legal opcode-cell values, transcribed from the table of 30_encoding.md R78. -/
def legalCells : BaseOp → List Nat
  | .add => [1, 101, 201, 1001, 1101, 1201, 2001, 2101, 2201] ++
      [20001, 20101, 20201, 21001, 21101, 21201, 22001, 22101, 22201]
  | .mul => [2, 102, 202, 1002, 1102, 1202, 2002, 2102, 2202] ++
      [20002, 20102, 20202, 21002, 21102, 21202, 22002, 22102, 22202]
  | .inp => [3, 203]
  | .out => [4, 104, 204]
  | .jt => [5, 105, 205, 1005, 1105, 1205, 2005, 2105, 2205]
  | .jf => [6, 106, 206, 1006, 1106, 1206, 2006, 2106, 2206]
  | .lt => [7, 107, 207, 1007, 1107, 1207, 2007, 2107, 2207] ++
      [20007, 20107, 20207, 21007, 21107, 21207, 22007, 22107, 22207]
  | .eq => [8, 108, 208, 1008, 1108, 1208, 2008, 2108, 2208] ++
      [20008, 20108, 20208, 21008, 21108, 21208, 22008, 22108, 22208]
  | .arb => [9, 109, 209]
  | .halt => [99]

/-- The base opcodes of 30_encoding.md R79's set {1,2,3,4,5,6,7,8,9,99}. -/
def legalBaseOpcodes : List Nat := [1, 2, 3, 4, 5, 6, 7, 8, 9, 99]

end Sys2Proof

/-! ### Memory (20_memory.md) -/

/-- 20_memory.md R51: MemRead's checks in order, then the cell, 0 if it was never listed. The first clause
pins `Config.inRange`, which the other statements speak through, to ADDR_LIMIT itself. ADDR_LIMIT and
ResourceExhausted are the spec's own choice, D2. -/
def Obligations.MemReadChecksThenReadsTheCell : Prop :=
  ∀ (s : State) (a : Int),
    (s.cfg.inRange a.toNat = true ↔ ∀ limit, s.cfg.addrLimit = some limit → a.toNat < limit) ∧
    (a < 0 → memRead s a = .error ⟨.invalidAddress, a⟩) ∧
    (∀ limit, s.cfg.addrLimit = some limit → 0 ≤ a →
      (limit ≤ a.toNat → memRead s a = .error ⟨.resourceExhausted, a⟩) ∧
      (a.toNat < limit → memRead s a = .ok (s.mem.read a.toNat))) ∧
    (s.cfg.addrLimit = none → 0 ≤ a → memRead s a = .ok (s.mem.read a.toNat)) ∧
    ((∀ c ∈ s.mem, c.1 ≠ a.toNat) → s.mem.read a.toNat = 0)

/-- 20_memory.md R52: MemWrite's checks in order, then one cell changes and nothing else does; and a
write address an instruction has resolved never fails in MemWrite. -/
def Obligations.MemWriteChangesExactlyOneCell : Prop :=
  ∀ (s : State) (a v : Int), s.mem.wf →
    (a < 0 → memWrite s a v = .error ⟨.invalidAddress, a⟩) ∧
    (0 ≤ a → s.cfg.inRange a.toNat = false → memWrite s a v = .error ⟨.resourceExhausted, a⟩) ∧
    (0 ≤ a → s.cfg.inRange a.toNat = true →
      ∃ t, memWrite s a v = .ok t ∧ t.mem.read a.toNat = v ∧ sameMemoryExcept a.toNat s t ∧
        t = { s with mem := t.mem }) ∧
    (∀ (c : Int) (p : Param) (n : Nat), writeAddress s c p = .ok n → ∃ t, memWrite s n v = .ok t)

/-- 20_memory.md R62: a fetch reads the memory the step before it wrote. After a step that completes an
instruction with a write target, the cell it stored to reads the value its own rule gives (`storedValue`:
the sum, the product, the truth value or the head of the input queue), for the next fetch too, and
every other cell reads as before; after a POKE the poked cell reads the value poked. -/
def Obligations.FetchSeesEveryEarlierWrite : Prop :=
  ∀ (s : State), s.mem.wf →
    (∀ t i d, s.status = .running → step s = .next t → fetchInstr s = .ok i →
      storeAddress i s = some d → t.status = .running →
      ∃ v, storedValue i s = some v ∧ memRead t d = .ok v ∧ sameMemoryExcept d s t ∧
        (t.ip = d → memRead t t.ip = .ok v)) ∧
    (∀ fuel a v t, command fuel (.poke a v) s = some (.ok, t) →
      memRead t a = .ok v ∧ (t.ip = a → memRead t t.ip = .ok v) ∧ t = { s with mem := t.mem })

/-- 10_state.md R23, R24: memory is the total function it reads as; in canonical form, equal reads are
equal data, so the store's extent is no state. -/
def Obligations.MemoriesThatReadAlikeAreEqual : Prop :=
  ∀ (m m' : Memory), m.wf → m'.wf → (∀ a, m.read a = m'.read a) → m = m'

/-! ### Operands (30_encoding.md) -/

/-- 30_encoding.md R75: the read operand in each mode. (A relative address that does not fit a finite
CELL_BITS is the subject of RelativeAddressThatDoesNotFitOverflows.) -/
def Obligations.ReadOperandFollowsItsMode : Prop :=
  ∀ (s : State) (p : Int),
    readOperand s ⟨.position, p⟩ = memRead s p ∧
    (p < 0 → readOperand s ⟨.position, p⟩ = .error ⟨.invalidAddress, p⟩) ∧
    readOperand s ⟨.immediate, p⟩ = .ok p ∧
    (s.cfg.fits (p + s.rb) = true →
      readOperand s ⟨.relative, p⟩ = memRead s (p + s.rb) ∧
      (p + s.rb < 0 → readOperand s ⟨.relative, p⟩ = .error ⟨.invalidAddress, p + s.rb⟩))

/-- 30_encoding.md R76: the write target in each mode, its address checks in order. That the checks stand
before any state change is the spec's own choice, D7. -/
def Obligations.WriteTargetFollowsItsMode : Prop :=
  ∀ (s : State) (c p : Int),
    writeAddress s c ⟨.immediate, p⟩ = .error ⟨.invalidParameterMode, c⟩ ∧
    (∀ m a, (m = .position ∧ a = p) ∨ (m = .relative ∧ a = p + s.rb ∧ s.cfg.fits a = true) →
      (a < 0 → writeAddress s c ⟨m, p⟩ = .error ⟨.invalidAddress, a⟩) ∧
      (0 ≤ a → s.cfg.inRange a.toNat = false →
        writeAddress s c ⟨m, p⟩ = .error ⟨.resourceExhausted, a⟩) ∧
      (0 ≤ a → s.cfg.inRange a.toNat = true → writeAddress s c ⟨m, p⟩ = .ok a.toNat))

/-- 60_exceptions.md R154 (the spec's own choice, D1): a relative-mode address outside the signed W-bit
range is a ValueOverflow. That this check stands before the address checks is the model's choice, log 5. -/
def Obligations.RelativeAddressThatDoesNotFitOverflows : Prop :=
  ∀ (s : State) (c p : Int) (w : Nat), s.cfg.cellBits = some w →
    (p + s.rb < -(2 : Int) ^ (w - 1) ∨ (2 : Int) ^ (w - 1) ≤ p + s.rb) →
    readOperand s ⟨.relative, p⟩ = .error ⟨.valueOverflow, p + s.rb⟩ ∧
    writeAddress s c ⟨.relative, p⟩ = .error ⟨.valueOverflow, p + s.rb⟩

/-! ### Encoding and decoding (30_encoding.md) -/

/-- 30_encoding.md R78: the decoder accepts exactly the 99 values of the table, each as its row's
instruction. The refusal of negative cells and of high digits is the spec's own choice, D4 and D5. -/
def Obligations.DecoderAcceptsExactlyTheLegalCells : Prop :=
  ∀ (c : Int) (op : BaseOp),
    (∃ modes, decodeOpcode c = .ok ⟨op, modes⟩) ↔ ∃ n ∈ legalCells op, c = (n : Int)

/-- 30_encoding.md R79; 60_exceptions.md R152, R153: which of the two faults an illegal cell raises, the
base opcode being checked before the modes. Negative cells and high digits: D4 and D5. -/
def Obligations.IllegalCellsRaiseExactlyOneFault : Prop :=
  ∀ (c : Int),
    (decodeOpcode c = .error (.illegalOpcode c) ↔ c < 0 ∨ c.toNat % 100 ∉ legalBaseOpcodes) ∧
    (decodeOpcode c = .error (.invalidParameterMode c) ↔
      0 ≤ c ∧ c.toNat % 100 ∈ legalBaseOpcodes ∧ ∀ op, ∀ n ∈ legalCells op, c ≠ (n : Int)) ∧
    (∀ e, decodeOpcode c = .error e → e = .illegalOpcode c ∨ e = .invalidParameterMode c)

/-- 30_encoding.md R71: the decimal fields of an accepted opcode cell: OP, each mode digit, HIGH, and a
digit that is not written being 0. -/
def Obligations.AcceptedCellHasItsDecimalFields : Prop :=
  (∀ (n : Nat) (f : OpcodeFields), decodeOpcode (n : Int) = .ok f →
    n % 100 = f.op.code ∧
    f.modes.length = f.op.paramCount ∧
    (∀ k (h : k < f.modes.length), n / 10 ^ (k + 2) % 10 = (f.modes[k]).digit) ∧
    n / 10 ^ (f.op.paramCount + 2) = 0) ∧
  (∀ (n k : Nat), digit n k = n / 10 ^ k % 10 ∧ (n < 10 ^ k → digit n k = 0))

/-- Decode and encode agree: every well-formed instruction, with every mode and every raw parameter,
decodes back from its cells, and the cells after it are left. -/
def Obligations.DecodingAnEncodedInstructionGivesItBack : Prop :=
  ∀ (i : Instr) (rest : List Int), i.wf = true → decode (encode i ++ rest) = .ok (i, rest)

/-- Every list of cells has at most one meaning: what the decoder reads is well-formed and its encoding
is the cells it was read from. -/
def Obligations.EncodingADecodedInstructionGivesItsCellsBack : Prop :=
  ∀ (cells rest : List Int) (i : Instr), decode cells = .ok (i, rest) →
    i.wf = true ∧ cells = encode i ++ rest

/-- Cells written out from 30_encoding.md R78 and R84, one for every row of the table. -/
def Obligations.SampleCellsDecodeToTheirInstructions : Prop :=
  decode [1, 9, 10, 3] = .ok (.add ⟨.position, 9⟩ ⟨.position, 10⟩ ⟨.position, 3⟩, []) ∧
  decode [1102, 34915192, 34915192, 7] =
    .ok (.mul ⟨.immediate, 34915192⟩ ⟨.immediate, 34915192⟩ ⟨.position, 7⟩, []) ∧
  decode [203, -1] = .ok (.inp ⟨.relative, -1⟩, []) ∧
  decode [204, -1] = .ok (.out ⟨.relative, -1⟩, []) ∧
  decode [1105, 1, 7] = .ok (.jt ⟨.immediate, 1⟩ ⟨.immediate, 7⟩, []) ∧
  decode [1006, 101, 0] = .ok (.jf ⟨.position, 101⟩ ⟨.immediate, 0⟩, []) ∧
  decode [21107, 3, 8, 9] = .ok (.lt ⟨.immediate, 3⟩ ⟨.immediate, 8⟩ ⟨.relative, 9⟩, []) ∧
  decode [1008, 100, 16, 101] = .ok (.eq ⟨.position, 100⟩ ⟨.immediate, 16⟩ ⟨.position, 101⟩, []) ∧
  decode [109, 19] = .ok (.arb ⟨.immediate, 19⟩, []) ∧
  decode [99] = .ok (.halt, [])

/-! ### The instruction cycle (30_encoding.md R82) -/

/-- 30_encoding.md R70, R82: while RUNNING, when the cells at IP are a well-formed instruction's encoding
and exist, a step is exactly the execution of that instruction; nothing is added around it. -/
def Obligations.StepRunsTheInstructionAtIp : Prop :=
  ∀ (s : State) (i : Instr), s.status = .running → 0 ≤ s.ip → i.wf = true →
    (∀ k (h : k < (encode i).length),
      s.cfg.inRange (s.ip.toNat + k) = true ∧ s.mem.read (s.ip.toNat + k) = (encode i)[k]) →
    step s = exec i s

/-- 60_exceptions.md R151 to R153, R155, R158 items 1 to 4: the faults of fetch and decode, taken in that
order, each from the state before the step. Rests on D2, D4, D5, D6 and D9. -/
def Obligations.FetchFaultsAreTaken : Prop :=
  ∀ (s : State), s.status = .running →
    (s.ip < 0 → step s = .next (enterFault ⟨.invalidAddress, s.ip⟩ .core s)) ∧
    (0 ≤ s.ip → s.cfg.inRange s.ip.toNat = false →
      step s = .next (enterFault ⟨.resourceExhausted, s.ip⟩ .core s)) ∧
    (∀ c, memRead s s.ip = .ok c →
      (c < 0 ∨ c.toNat % 100 ∉ legalBaseOpcodes →
        step s = .next (enterFault ⟨.illegalOpcode, c⟩ .core s)) ∧
      (0 ≤ c → c.toNat % 100 ∈ legalBaseOpcodes → (∀ op, ∀ n ∈ legalCells op, c ≠ (n : Int)) →
        step s = .next (enterFault ⟨.invalidParameterMode, c⟩ .core s)) ∧
      (∀ f k, decodeOpcode c = .ok f → k < f.op.paramCount →
        (∀ j, j < k → s.cfg.inRange (s.ip + 1 + j).toNat = true) →
        s.cfg.inRange (s.ip + 1 + k).toNat = false →
        step s = .next (enterFault ⟨.resourceExhausted, s.ip + 1 + k⟩ .core s)))

/-- 60_exceptions.md R174: in every idle state a step and every command but RUN and LOAD execute nothing;
only RUN wakes the core from READY or AWAITING_INPUT, and HALTED and FAULTED stay until LOAD. -/
def Obligations.IdleCoreRetainsItsState : Prop :=
  ∀ (s : State), s.status ≠ .running →
    step s = .next s ∧
    (∀ fuel c r t, command fuel c s = some (r, t) →
      (∀ p, c ≠ .load p) → (c ≠ .run ∨ s.status = .halted ∨ s.status = .faulted) →
        t.ip = s.ip ∧ t.rb = s.rb ∧ t.outLog = s.outLog ∧ t.status ≠ .running ∧
        (t.status = s.status ∨ t.status = .faulted)) ∧
    (∀ fuel v r t, command fuel (.feed v) s = some (r, t) → t = { s with inQ := t.inQ }) ∧
    (∀ fuel, s.status = .halted ∨ s.status = .faulted →
      ∃ r, command fuel .run s = some (r, s))

/-- The core never stops the model: on every state a step answers a next state, faults being taken
(60_exceptions.md R156) and not left. -/
def Obligations.EveryStepAnswersANextState : Prop :=
  ∀ (s : State), ∃ t, step s = .next t ∧ t.cfg = s.cfg ∧
    (t.status = .ready → s.status = .ready) ∧ (s.status ≠ .running → t = s)

/-- 60_exceptions.md R166, the four RUNNING rows: a step leaves RUNNING exactly by a suspending IN, by
HALT or by a fault. The state machine's READY and FAULTED are the spec's own, D10. That an IN suspends
only where IP + 2 fits is the model's choice, log 7, its reading of R158 items 6 and 7. -/
def Obligations.StatusLeavesRunningOnlyAsTabled : Prop :=
  ∀ (s t : State), s.status = .running → step s = .next t →
    (t.status = .halted ↔ fetchInstr s = .ok .halt) ∧
    (t.status = .awaitingInput ↔
      s.inQ = [] ∧ s.cfg.fits (s.ip + 2) = true ∧
        ∃ dst, fetchInstr s = .ok (.inp dst) ∧ ∃ d, storeAddress (.inp dst) s = some d) ∧
    (t.status = .faulted ↔ ∃ e, t = enterFault e .core s) ∧
    t.status ≠ .ready

/-! ### The instructions: what each does when it completes, and its frame -/

/-- 40_arithmetic.md R100, R102: ADD writes the exact sum to the resolved cell and advances IP by 4; every
other cell and register is unchanged. -/
def Obligations.AddWritesTheExactSum : Prop :=
  ∀ (s : State) (a b dst : Param) (x y : Int) (d : Nat), s.mem.wf →
    readOperand s a = .ok x → readOperand s b = .ok y →
    writeAddress s (opcodeCell .add [a, b, dst]) dst = .ok d →
    s.cfg.fits (x + y) = true → s.cfg.fits (s.ip + 4) = true →
    ∃ t, exec (.add a b dst) s = .next t ∧ t.mem.read d = x + y ∧ sameMemoryExcept d s t ∧
      t.ip = s.ip + 4 ∧ t.rb = s.rb ∧ t.status = s.status ∧ sameRecord s t ∧ sameChannels s t ∧
      t.cfg = s.cfg

/-- 40_arithmetic.md R101, R102: MUL writes the exact product to the resolved cell and advances IP by 4;
every other cell and register is unchanged. -/
def Obligations.MulWritesTheExactProduct : Prop :=
  ∀ (s : State) (a b dst : Param) (x y : Int) (d : Nat), s.mem.wf →
    readOperand s a = .ok x → readOperand s b = .ok y →
    writeAddress s (opcodeCell .mul [a, b, dst]) dst = .ok d →
    s.cfg.fits (x * y) = true → s.cfg.fits (s.ip + 4) = true →
    ∃ t, exec (.mul a b dst) s = .next t ∧ t.mem.read d = x * y ∧ sameMemoryExcept d s t ∧
      t.ip = s.ip + 4 ∧ t.rb = s.rb ∧ t.status = s.status ∧ sameRecord s t ∧ sameChannels s t ∧
      t.cfg = s.cfg

/-- 43_compare.md R130: LT writes 1 when a < b as signed integers and else 0, and advances IP by 4; every
other cell and register is unchanged. The result itself never overflows. -/
def Obligations.LessThanWritesOneOrZero : Prop :=
  ∀ (s : State) (a b dst : Param) (x y : Int) (d : Nat), s.mem.wf →
    readOperand s a = .ok x → readOperand s b = .ok y →
    writeAddress s (opcodeCell .lt [a, b, dst]) dst = .ok d → s.cfg.fits (s.ip + 4) = true →
    ∃ t, exec (.lt a b dst) s = .next t ∧ (x < y → t.mem.read d = 1) ∧
      (y ≤ x → t.mem.read d = 0) ∧ sameMemoryExcept d s t ∧
      t.ip = s.ip + 4 ∧ t.rb = s.rb ∧ t.status = s.status ∧ sameRecord s t ∧ sameChannels s t ∧
      t.cfg = s.cfg

/-- 43_compare.md R131: EQ writes 1 when a and b are the same integer and else 0, and advances IP by 4;
every other cell and register is unchanged. The result itself never overflows. -/
def Obligations.EqualsWritesOneOrZero : Prop :=
  ∀ (s : State) (a b dst : Param) (x y : Int) (d : Nat), s.mem.wf →
    readOperand s a = .ok x → readOperand s b = .ok y →
    writeAddress s (opcodeCell .eq [a, b, dst]) dst = .ok d → s.cfg.fits (s.ip + 4) = true →
    ∃ t, exec (.eq a b dst) s = .next t ∧ (x = y → t.mem.read d = 1) ∧
      (x ≠ y → t.mem.read d = 0) ∧ sameMemoryExcept d s t ∧
      t.ip = s.ip + 4 ∧ t.rb = s.rb ∧ t.status = s.status ∧ sameRecord s t ∧ sameChannels s t ∧
      t.cfg = s.cfg

/-- 41_io.md R110: IN with a value waiting stores the oldest one, takes it from the queue and advances IP
by 2; every other cell and register is unchanged. -/
def Obligations.InputStoresTheOldestValue : Prop :=
  ∀ (s : State) (dst : Param) (v : Int) (rest : List Int) (d : Nat), s.mem.wf →
    writeAddress s (opcodeCell .inp [dst]) dst = .ok d → s.inQ = v :: rest →
    s.cfg.fits (s.ip + 2) = true →
    ∃ t, exec (.inp dst) s = .next t ∧ t.inQ = rest ∧ t.mem.read d = v ∧ sameMemoryExcept d s t ∧
      t.ip = s.ip + 2 ∧ t.rb = s.rb ∧ t.status = s.status ∧ sameRecord s t ∧
      t.outLog = s.outLog ∧ t.outCur = s.outCur ∧ t.cfg = s.cfg

/-- 41_io.md R110: IN with an empty queue suspends: STATUS alone changes. In a finite realisation IP + 2
is checked first (60_exceptions.md R158; log 7). -/
def Obligations.InputWithAnEmptyQueueSuspends : Prop :=
  ∀ (s : State) (dst : Param) (d : Nat),
    writeAddress s (opcodeCell .inp [dst]) dst = .ok d → s.inQ = [] →
    s.cfg.fits (s.ip + 2) = true →
    exec (.inp dst) s = .next { s with status := .awaitingInput }

/-- 41_io.md R111: OUT appends its operand to the log and advances IP by 2; memory and every other
register are unchanged. The full-log condition of a finite OUT_DEPTH is the spec's own choice, D3. -/
def Obligations.OutputAppendsItsOperand : Prop :=
  ∀ (s : State) (a : Param) (x : Int), readOperand s a = .ok x →
    (∀ depth, s.cfg.outDepth = some depth → s.outLog.length - s.outCur < depth) →
    s.cfg.fits (s.ip + 2) = true →
    exec (.out a) s = .next { s with outLog := s.outLog ++ [x], ip := s.ip + 2 }

/-- 42_jumps.md R120, R122: JT sets IP to the target exactly when the condition is not 0, negative targets
too, and else advances by 3; nothing else changes. Both operands resolve first (D6), and a negative
target is not a fault of JT (D9). -/
def Obligations.JumpIfTrueSetsIp : Prop :=
  ∀ (s : State) (a t : Param) (x target : Int),
    readOperand s a = .ok x → readOperand s t = .ok target →
    (x ≠ 0 → exec (.jt a t) s = .next { s with ip := target }) ∧
    (x = 0 → s.cfg.fits (s.ip + 3) = true → exec (.jt a t) s = .next { s with ip := s.ip + 3 })

/-- 42_jumps.md R121, R122: JF sets IP to the target exactly when the condition is 0 and else advances by
3; nothing else changes. Both operands resolve first (D6), and a negative target is no fault (D9). -/
def Obligations.JumpIfFalseSetsIp : Prop :=
  ∀ (s : State) (a t : Param) (x target : Int),
    readOperand s a = .ok x → readOperand s t = .ok target →
    (x = 0 → exec (.jf a t) s = .next { s with ip := target }) ∧
    (x ≠ 0 → s.cfg.fits (s.ip + 3) = true → exec (.jf a t) s = .next { s with ip := s.ip + 3 })

/-- 44_base_and_halt.md R140: ARB adds its operand, resolved with the old RB, to RB and advances IP by 2;
memory and every other register are unchanged. A negative new RB is no fault. -/
def Obligations.AdjustAddsToRelativeBase : Prop :=
  ∀ (s : State) (a : Param) (x : Int), readOperand s a = .ok x →
    s.cfg.fits (s.rb + x) = true → s.cfg.fits (s.ip + 2) = true →
    exec (.arb a) s = .next { s with rb := s.rb + x, ip := s.ip + 2 }

/-- 44_base_and_halt.md R141: HALT sets STATUS to HALTED and changes nothing else. That IP stays is the
spec's own choice, D12. -/
def Obligations.HaltSetsHaltedOnly : Prop :=
  ∀ (s : State), exec .halt s = .next { s with status := .halted }

/-- The frame of every instruction in every outcome, completion, suspension and fault alike: a cell other
than the one its meaning resolves as its write target reads as before, and each register changes only
where its rule says so (20_memory.md R56; 10_state.md R26, R32). -/
def Obligations.EveryInstructionKeepsItsFrame : Prop :=
  ∀ (i : Instr) (s t : State), exec i s = .next t →
    (∀ a, storeAddress i s ≠ some a → t.mem.read a = s.mem.read a) ∧
    (t.rb = s.rb ∨ ∃ a, i = .arb a) ∧
    (t.outLog = s.outLog ∨ ∃ a x, i = .out a ∧ readOperand s a = .ok x ∧
      t.outLog = s.outLog ++ [x]) ∧
    (t.inQ = s.inQ ∨ ∃ dst v, i = .inp dst ∧ s.inQ = v :: t.inQ) ∧
    t.outCur = s.outCur ∧ t.cfg = s.cfg ∧
    (t.status = s.status ∨ t.status = .faulted ∨ (t.status = .halted ∧ i = .halt) ∨
      (t.status = .awaitingInput ∧ s.inQ = [] ∧ ∃ dst, i = .inp dst)) ∧
    (sameRecord s t ∨ (t.status = .faulted ∧ s.status ≠ .faulted))

/-- 44_base_and_halt.md R140's testable property: what an instruction writes in relative mode at offset k
reads back in position mode at address k + RB, and the other way round. -/
def Obligations.RelativeAndPositionModesNameOneCell : Prop :=
  ∀ (s t : State) (a b : Param) (k x y : Int), s.mem.wf →
    readOperand s a = .ok x → readOperand s b = .ok y →
    (∀ v, writeAddress s v ⟨.relative, k⟩ = .ok (k + s.rb).toNat →
      s.cfg.fits (x + y) = true → s.cfg.fits (s.ip + 4) = true →
      exec (.add a b ⟨.relative, k⟩) s = .next t →
      readOperand t ⟨.position, k + s.rb⟩ = .ok (x + y)) ∧
    (∀ v, writeAddress s v ⟨.position, k + s.rb⟩ = .ok (k + s.rb).toNat →
      s.cfg.fits (k + s.rb) = true → s.cfg.fits (x + y) = true → s.cfg.fits (s.ip + 4) = true →
      exec (.add a b ⟨.position, k + s.rb⟩) s = .next t →
      readOperand t ⟨.relative, k⟩ = .ok (x + y))

/-! ### Faults (60_exceptions.md) -/

/-- 60_exceptions.md R156, R159: fault entry records the cause, IP, information and origin and sets
FAULTED, unless the core is FAULTED already, when it changes nothing. The record and the atomicity are
the spec's own choice, D7, D11 and D13. -/
def Obligations.FaultEntryRecordsTheFirstFault : Prop :=
  ∀ (s : State) (e : FaultReport) (o : FaultOrigin),
    (s.status ≠ .faulted →
      enterFault e o s = { s with
        status := .faulted, faultCause := e.cause, faultIp := s.ip, faultInfo := e.info,
        faultOrigin := o }) ∧
    (s.status = .faulted → enterFault e o s = s)

/-- 60_exceptions.md R156, R157: a step that ends in FAULTED has had no effect but STATUS and the record,
and the record names the faulting instruction's address and the core. The spec's own choice, D7, D11. -/
def Obligations.StepFaultsArePreciseAndAtomic : Prop :=
  ∀ (s t : State), s.status = .running → step s = .next t → t.status = .faulted →
    t.faultIp = s.ip ∧ t.faultOrigin = .core ∧ t.faultCause ≠ .none ∧
    t = { s with
      status := .faulted, faultCause := t.faultCause, faultIp := s.ip, faultInfo := t.faultInfo,
      faultOrigin := .core }

/-- 60_exceptions.md R158 item 5: the first parameter, in parameter order, that does not resolve gives the
fault, whatever comes after it: a later parameter, a jump that would not fire, an empty input queue.
The order is the spec's own choice, D6 and D8. -/
def Obligations.FirstUnresolvedParameterGivesTheFault : Prop :=
  ∀ (i : Instr) (s : State) (e : FaultReport), firstResolutionError i s = some e →
    exec i s = .next (enterFault e .core s)

/-- 60_exceptions.md R154, R155, R158 item 6: the faults of execution in a finite realisation, once every
parameter has resolved. The spec's own choice, D1 and D3; that a result is checked before IP + width, and
a full log before it, is the model's choice, log 6, and that IN checks IP + 2 on an empty queue, log 7. -/
def Obligations.FiniteRealisationFaultsInsteadOfWrapping : Prop :=
  ∀ (s : State) (i : Instr), firstResolutionError i s = none →
    (∀ a b dst x y, readOperand s a = .ok x → readOperand s b = .ok y →
      (i = .add a b dst → s.cfg.fits (x + y) = false →
        exec i s = .next (enterFault ⟨.valueOverflow, x + y⟩ .core s)) ∧
      (i = .mul a b dst → s.cfg.fits (x * y) = false →
        exec i s = .next (enterFault ⟨.valueOverflow, x * y⟩ .core s)) ∧
      ((i = .add a b dst ∧ s.cfg.fits (x + y) = true) ∨
        (i = .mul a b dst ∧ s.cfg.fits (x * y) = true) ∨ i = .lt a b dst ∨ i = .eq a b dst →
        s.cfg.fits (s.ip + 4) = false →
        exec i s = .next (enterFault ⟨.valueOverflow, s.ip + 4⟩ .core s)) ∧
      ((i = .jt a b ∧ x = 0) ∨ (i = .jf a b ∧ x ≠ 0) → s.cfg.fits (s.ip + 3) = false →
        exec i s = .next (enterFault ⟨.valueOverflow, s.ip + 3⟩ .core s))) ∧
    (∀ a x, readOperand s a = .ok x →
      (i = .arb a → s.cfg.fits (s.rb + x) = false →
        exec i s = .next (enterFault ⟨.valueOverflow, s.rb + x⟩ .core s)) ∧
      (i = .out a → (∃ depth, s.cfg.outDepth = some depth ∧ depth ≤ s.outLog.length - s.outCur) →
        exec i s = .next (enterFault ⟨.resourceExhausted, x⟩ .core s)) ∧
      ((i = .arb a ∧ s.cfg.fits (s.rb + x) = true) ∨
        (i = .out a ∧ ∀ depth, s.cfg.outDepth = some depth → s.outLog.length - s.outCur < depth) →
        s.cfg.fits (s.ip + 2) = false →
        exec i s = .next (enterFault ⟨.valueOverflow, s.ip + 2⟩ .core s))) ∧
    (∀ dst, i = .inp dst → s.cfg.fits (s.ip + 2) = false →
      exec i s = .next (enterFault ⟨.valueOverflow, s.ip + 2⟩ .core s))

/-- 60_exceptions.md R150: in the reference hardware a step raises only codes 1 to 3. The numbering and
the other two kinds are the spec's own choice, D1 to D3 and D11. -/
def Obligations.ReferenceHardwareRaisesOnlyThreeFaults : Prop :=
  ∀ (s t : State), s.cfg = Config.reference → s.status = .running → step s = .next t →
    t.status = .faulted →
    t.faultCause.code = 1 ∨ t.faultCause.code = 2 ∨ t.faultCause.code = 3

/-- 60_exceptions.md R159: FAULTED and its record survive every command but LOAD, and RUN returns the
record again. The spec's own choice, D13. -/
def Obligations.FaultedIsLeftOnlyByLoad : Prop :=
  ∀ (s t : State) (fuel : Nat) (c : HostCommand) (r : Response), s.status = .faulted →
    (∀ p, c ≠ .load p) → command fuel c s = some (r, t) →
    t.status = .faulted ∧ sameRecord s t ∧
    (c = .run → t = s ∧
      r = .run (.faulted s.faultCause s.faultIp s.faultInfo s.faultOrigin))

/-! ### Whole-machine rules -/

/-- 10_state.md R26: only ARB and LOAD change RB, over every step and every command. -/
def Obligations.OnlyAdjustAndLoadChangeRelativeBase : Prop :=
  (∀ (s t : State), step s = .next t → t.rb ≠ s.rb →
    ∃ a x, fetchInstr s = .ok (.arb a) ∧ readOperand s a = .ok x ∧ t.rb = s.rb + x) ∧
  (∀ (s t : State) fuel c r, command fuel c s = some (r, t) → t.rb ≠ s.rb →
    (∃ p, c = .load p) ∨ c = .run)

/-- 10_state.md R25: IP can become negative only by JT or JF jumping to a negative target. -/
def Obligations.OnlyJumpsMakeIpNegative : Prop :=
  ∀ (s t : State), step s = .next t → 0 ≤ s.ip → t.ip < 0 →
    ∃ a target x, (fetchInstr s = .ok (.jt a target) ∧ x ≠ 0 ∨
        fetchInstr s = .ok (.jf a target) ∧ x = 0) ∧
      readOperand s a = .ok x ∧ readOperand s target = .ok t.ip

/-- 10_state.md R23; 20_memory.md R56: a step changes at most the one cell its instruction resolves as a
write target, so only ADD, MUL, IN, LT and EQ change memory; of the other commands only POKE and LOAD. -/
def Obligations.OnlyWriteTargetsChangeMemory : Prop :=
  (∀ (s t : State) (a : Nat), step s = .next t → t.mem.read a ≠ s.mem.read a →
    s.status = .running ∧ t.status = .running ∧
      ∃ i, fetchInstr s = .ok i ∧ storeAddress i s = some a) ∧
  (∀ (s t : State) fuel c r (a : Nat), command fuel c s = some (r, t) →
    t.mem.read a ≠ s.mem.read a →
    (∃ p, c = .load p) ∨ c = .run ∨ ∃ v, c = .poke (a : Int) v)

/-- 41_io.md R112: the guarantees of the channel, on every step and over every run of steps: an OUT that
completes appends one value, an IN that completes removes the head, no other step touches either, and
over a run no value is consumed twice, reordered or lost; FEED appends at the tail, and TAKE hands the
outputs over in the order they were appended. The cursor, and that a clearing TAKE moves it to the
length of the log, are R163's and the spec's own choice, D16. -/
def Obligations.ChannelLosesAndReordersNothing : Prop :=
  (∀ (s t : State), step s = .next t →
    (t.outLog = s.outLog ∨ ∃ a x, s.status = .running ∧ fetchInstr s = .ok (.out a) ∧
      readOperand s a = .ok x ∧ t.outLog = s.outLog ++ [x]) ∧
    (t.inQ = s.inQ ∨ ∃ dst v, s.status = .running ∧ fetchInstr s = .ok (.inp dst) ∧
      s.inQ = v :: t.inQ) ∧
    (∀ a, s.status = .running → t.status = .running → fetchInstr s = .ok (.out a) →
      ∃ x, t.outLog = s.outLog ++ [x]) ∧
    (∀ dst, s.status = .running → t.status = .running → fetchInstr s = .ok (.inp dst) →
      ∃ v, s.inQ = v :: t.inQ) ∧
    (t.status = .awaitingInput ∨ t.status = .faulted → t.inQ = s.inQ)) ∧
  (∀ (n : Nat) (s t : State), Host.Core.run Sys2Proof.core n s = .next t →
    ∃ produced consumed, t.outLog = s.outLog ++ produced ∧ s.inQ = consumed ++ t.inQ ∧
      t.outCur = s.outCur) ∧
  (∀ (s t : State) fuel v, command fuel (.feed v) s = some (.ok, t) → t.inQ = s.inQ ++ [v]) ∧
  (∀ (s t : State) fuel vs, s.outCur ≤ s.outLog.length →
    command fuel (.take true) s = some (.outputs vs, t) →
    s.outLog = s.outLog.take s.outCur ++ vs ∧ t.outLog = s.outLog ∧ t.outCur = s.outLog.length)

/-- 10_state.md R31; 60_exceptions.md R163: taking outputs never affects execution. With an unbounded
OUT_DEPTH, a run of any length from the same core with any other log and cursor makes the same steps
and appends the same values. -/
def Obligations.OutputLogNeverAffectsExecution : Prop :=
  ∀ (n : Nat) (s t : State), s.cfg.outDepth = none →
    Host.Core.run Sys2Proof.core n s = .next t →
    ∃ produced, t.outLog = s.outLog ++ produced ∧
      ∀ log cur, Host.Core.run Sys2Proof.core n { s with outLog := log, outCur := cur } =
        .next { t with outLog := log ++ produced, outCur := cur }

/-- 41_io.md R110, R112: inputs fed later change nothing that ran before they were needed. A run that has
not suspended makes the same steps with more values at the tail of the queue, and leaves them there. -/
def Obligations.InputsAtTheTailDoNotChangeTheRunSoFar : Prop :=
  ∀ (n : Nat) (s t : State) (more : List Int), Host.Core.run Sys2Proof.core n s = .next t →
    t.status ≠ .awaitingInput →
    Host.Core.run Sys2Proof.core n { s with inQ := s.inQ ++ more } =
      .next { t with inQ := t.inQ ++ more }

/-- 60_exceptions.md R167: suspension changes STATUS alone; RUN then attempts the instruction at the
unchanged IP again from scratch: with a value fed it goes on as if the value had been there, with none it
suspends again with no change, and with the cells at IP rewritten it runs the new ones. -/
def Obligations.SuspendedInputIsReattempted : Prop :=
  ∀ (s t : State) (fuel : Nat), s.status = .running → step s = .next t →
    t.status = .awaitingInput →
    t = { s with status := .awaitingInput } ∧
    command (fuel + 1) .run t = some (.run .awaitingInput, t) ∧
    (∀ v u, hostFeed v t = (.ok, u) →
      u = { t with inQ := [v] } ∧
      ∃ dst d, fetchInstr s = .ok (.inp dst) ∧ storeAddress (.inp dst) s = some d ∧
        step { s with inQ := [v] } =
          .next { s with inQ := [], mem := s.mem.write d v, ip := s.ip + 2 } ∧
        runLoop (fuel + 1) (u.setStatus .running) =
          runLoop fuel { s with inQ := [], mem := s.mem.write d v, ip := s.ip + 2 }) ∧
    (∀ a v u i, hostPoke a v t = (.ok, u) → fetchInstr u = .ok i →
      step (u.setStatus .running) = exec i (u.setStatus .running))

/-! ### The invariant -/

/-- The invariant of the core holds right after reset, and what reset leaves (10_state.md R38;
70_reset_and_hazards.md R181). STATUS, the fault record, the queue, the log and the cursor have the
values of the spec's own choice, D10, D11, D16 and D23. That the program LOAD has placed is the empty
one, so that every cell reads 0, is the model's reading, log 3; that the parameters stand in State, with
the reference hardware's values at reset, is the model's choice, log 2. -/
def Obligations.InvariantHoldsAtReset : Prop :=
  State.reset.Inv ∧ State.reset.status = .ready ∧ (∀ a, State.reset.mem.read a = 0) ∧
    State.reset.ip = 0 ∧ State.reset.rb = 0 ∧ State.reset.recordClear ∧ State.reset.inQ = [] ∧
    State.reset.outLog = [] ∧ State.reset.outCur = 0 ∧ State.reset.cfg = Config.reference

/-- Every step keeps the invariant, in every realisation: memory stays canonical and below ADDR_LIMIT,
every value fits, the cursor and the queues stay in bounds, and the fault record agrees with STATUS. -/
def Obligations.EveryStepKeepsTheInvariant : Prop :=
  ∀ (s t : State), s.Inv → step s = .next t → t.Inv

/-- Every host command keeps the invariant, whatever RUN executes and whatever the host sends. -/
def Obligations.EveryCommandKeepsTheInvariant : Prop :=
  ∀ (s t : State) (fuel : Nat) (c : HostCommand) (r : Response), s.Inv →
    command fuel c s = some (r, t) → t.Inv

/-! ### The host commands -/

/-- 70_reset_and_hazards.md R180; 10_state.md R38: LOAD sets every piece of state, from any state that is
not RUNNING, and is refused with no change when a finite realisation cannot hold the program. The reset
values beyond IP, RB and memory are the spec's own choice, D10, D11, D16 and D23. -/
def Obligations.LoadSetsEveryPieceOfState : Prop :=
  ∀ (s : State) (p : List Int) (fuel : Nat), s.status ≠ .running →
    ((∀ v ∈ p, s.cfg.fits v = true) → (∀ limit, s.cfg.addrLimit = some limit → p.length ≤ limit) →
      ∃ t, command fuel (.load p) s = some (.ok, t) ∧ t.mem.wf ∧
        (∀ a (h : a < p.length), t.mem.read a = p[a]) ∧ (∀ a, p.length ≤ a → t.mem.read a = 0) ∧
        t.ip = 0 ∧ t.rb = 0 ∧ t.status = .ready ∧ t.recordClear ∧ t.inQ = [] ∧ t.outLog = [] ∧
        t.outCur = 0 ∧ t.cfg = s.cfg) ∧
    ((∃ v ∈ p, s.cfg.fits v = false) ∨ (∃ limit, s.cfg.addrLimit = some limit ∧ limit < p.length) →
      command fuel (.load p) s = some (.refused, s))

/-- 60_exceptions.md R162: FEED appends at the tail whatever the idle STATUS and changes nothing else, or
is REFUSED in a finite realisation. The spec's own choice, D3 and D22. -/
def Obligations.FeedAppendsAtTheTail : Prop :=
  ∀ (s : State) (v : Int) (fuel : Nat), s.status ≠ .running →
    (s.cfg.fits v = true → (∀ depth, s.cfg.inDepth = some depth → s.inQ.length < depth) →
      command fuel (.feed v) s = some (.ok, { s with inQ := s.inQ ++ [v] })) ∧
    (s.cfg.fits v = false ∨ (∃ depth, s.cfg.inDepth = some depth ∧ depth ≤ s.inQ.length) →
      command fuel (.feed v) s = some (.refused, s))

/-- 60_exceptions.md R163: TAKE returns the outputs since the last clearing TAKE, oldest first; only a
clearing one moves the cursor, after which nothing is left. The spec's own choice, D16. -/
def Obligations.TakeReturnsTheUntakenOutputs : Prop :=
  ∀ (s : State) (fuel : Nat), s.status ≠ .running →
    command fuel (.take false) s = some (.outputs (s.outLog.drop s.outCur), s) ∧
    command fuel (.take true) s =
      some (.outputs (s.outLog.drop s.outCur), { s with outCur := s.outLog.length }) ∧
    command fuel (.take true) { s with outCur := s.outLog.length } =
      some (.outputs [], { s with outCur := s.outLog.length })

/-- 60_exceptions.md R164, R165: PEEK returns a cell and changes nothing, POKE changes that cell alone; an
invalid address faults the instance with origin HOST. The spec's own choice, D15 and D2; the response to a
POKE at an invalid address is the model's, log 14. -/
def Obligations.PeekAndPokeReachOneCell : Prop :=
  ∀ (s : State) (a v : Int) (fuel : Nat), s.status ≠ .running → s.mem.wf →
    (a < 0 →
      command fuel (.peek a) s =
        some (.fault .invalidAddress, enterFault ⟨.invalidAddress, a⟩ .host s) ∧
      command fuel (.poke a v) s =
        some (.fault .invalidAddress, enterFault ⟨.invalidAddress, a⟩ .host s)) ∧
    (0 ≤ a → s.cfg.inRange a.toNat = false →
      command fuel (.peek a) s =
        some (.fault .resourceExhausted, enterFault ⟨.resourceExhausted, a⟩ .host s) ∧
      command fuel (.poke a v) s =
        some (.fault .resourceExhausted, enterFault ⟨.resourceExhausted, a⟩ .host s)) ∧
    (0 ≤ a → s.cfg.inRange a.toNat = true →
      command fuel (.peek a) s = some (.value (s.mem.read a.toNat), s) ∧
      (s.cfg.fits v = false → command fuel (.poke a v) s = some (.refused, s)) ∧
      (s.cfg.fits v = true →
        ∃ t, command fuel (.poke a v) s = some (.ok, t) ∧ t.mem.read a.toNat = v ∧
          sameMemoryExcept a.toNat s t ∧ t = { s with mem := t.mem }))

/-- 60_exceptions.md R160, R161, R166: while RUNNING no command is accepted; RUN of a stopped core answers
at once; a RUN that returns has stopped, in AWAITING_INPUT, HALTED or FAULTED, and says which; and a RUN
from READY or AWAITING_INPUT returns whenever some number of steps within its fuel stops the core. The
spec's own choice, D10, D12, D13 and D14; the fuel is the model's bound, log 4, and so is `none` for a
command while RUNNING. -/
def Obligations.RunReturnsWhereTheCoreStopped : Prop :=
  ∀ (s : State) (fuel : Nat),
    (s.status = .running → ∀ c, command fuel c s = none) ∧
    (s.status = .halted → command fuel .run s = some (.run .halted, s)) ∧
    (s.status = .faulted → command fuel .run s =
      some (.run (.faulted s.faultCause s.faultIp s.faultInfo s.faultOrigin), s)) ∧
    (∀ r t, command fuel .run s = some (r, t) →
      (t.status = .awaitingInput ∧ r = .run .awaitingInput) ∨
      (t.status = .halted ∧ r = .run .halted) ∨
      (t.status = .faulted ∧
        r = .run (.faulted t.faultCause t.faultIp t.faultInfo t.faultOrigin))) ∧
    (∀ r t, s.status = .ready ∨ s.status = .awaitingInput → command fuel .run s = some (r, t) →
      ∃ n, n ≤ fuel ∧
        Host.Core.run Sys2Proof.core n { s with status := .running } = .next t) ∧
    (∀ (n : Nat) (t : State), s.status = .ready ∨ s.status = .awaitingInput → n ≤ fuel →
      Host.Core.run Sys2Proof.core n { s with status := .running } = .next t →
      t.status ≠ .running →
      (t.status = .awaitingInput ∧ command fuel .run s = some (.run .awaitingInput, t)) ∨
      (t.status = .halted ∧ command fuel .run s = some (.run .halted, t)) ∨
      (t.status = .faulted ∧ command fuel .run s =
        some (.run (.faulted t.faultCause t.faultIp t.faultInfo t.faultOrigin), t)))

/-- 60_exceptions.md R171: a core that never stops keeps RUN running for ever, and running out of fuel is
no result; a result, once there, is the same at every larger fuel. -/
def Obligations.RunWithoutAStopHasNoResult : Prop :=
  (∀ (s : State), s.status ≠ .halted → s.status ≠ .faulted →
    (∀ n t, Host.Core.run Sys2Proof.core n { s with status := .running } = .next t →
      t.status = .running) →
    ∀ fuel, command fuel .run s = none) ∧
  (∀ (s t : State) fuel, s.status ≠ .halted → s.status ≠ .faulted →
    Host.Core.run Sys2Proof.core fuel { s with status := .running } = .next t →
    t.status = .running → command fuel .run s = none) ∧
  (∀ (s : State) cs fuel more rt, session fuel cs s = some rt →
    session (fuel + more) cs s = some rt)

/-- 60_exceptions.md R175: after a LOAD the core takes, the responses and the state of any sequence of
commands are a function of the program and the commands (and the parameters, log 2): two cores with
any pasts answer alike and end alike. -/
def Obligations.SessionDependsOnProgramAndCommandsAlone : Prop :=
  ∀ (s s' : State) (p : List Int) (cs : List HostCommand) (fuel : Nat),
    s.status ≠ .running → s'.status ≠ .running → s.cfg = s'.cfg →
    (∀ v ∈ p, s.cfg.fits v = true) → (∀ limit, s.cfg.addrLimit = some limit → p.length ≤ limit) →
    session fuel (.load p :: cs) s = session fuel (.load p :: cs) s'

/-- 00_scope.md R6, 10_state.md R40: the realisation's parameters are no state: no step and no command
changes them (log 2). -/
def Obligations.ConfigurationIsConstant : Prop :=
  (∀ (s t : State), step s = .next t → t.cfg = s.cfg) ∧
  (∀ (s t : State) fuel c r, command fuel c s = some (r, t) → t.cfg = s.cfg)

/-- 00_scope.md R9, R6: `fits`, which the other statements speak through, is the signed W-bit range of a
finite CELL_BITS and always true in the reference hardware. The parameter is the spec's own choice, D1. -/
def Obligations.FitsIsTheSignedRange : Prop :=
  ∀ (cfg : Config) (v : Int),
    (cfg.cellBits = none → cfg.fits v = true) ∧
    (∀ w, cfg.cellBits = some w →
      (cfg.fits v = true ↔ -(2 : Int) ^ (w - 1) ≤ v ∧ v < (2 : Int) ^ (w - 1)))
end

