-- ==== Sys2Proof/Laws/Decode.lean ====
section
/-! SUPPORT. What the decoder accepts, table by table: one inversion per function of Decode.lean. -/

namespace Sys2Proof

/-- NPARAMS is the number of roles (30_encoding.md R72). -/
theorem roles_length (op : BaseOp) : op.roles.length = op.paramCount := by cases op <;> rfl

/-- The number a base opcode is selected by is its code. -/
theorem ofCode_some {n : Nat} {op : BaseOp} : BaseOp.ofCode n = some op ↔ n = op.code := by
  constructor
  · intro h; unfold BaseOp.ofCode at h; split at h <;> simp_all <;> subst h <;> rfl
  · rintro rfl; cases op <;> rfl

/-- The digit a mode is selected by is its digit. -/
theorem ofDigit_some {n : Nat} {m : Mode} : Mode.ofDigit n = some m ↔ n = m.digit := by
  constructor
  · intro h; unfold Mode.ofDigit at h; split at h <;> simp_all <;> subst h <;> rfl
  · rintro rfl; cases m <;> rfl

/-- One turn of the decoder's loop over the parameters (30_encoding.md R79). -/
theorem decodeModes_cons {c k : Nat} {r : Role} {rs : List Role} {ms : List Mode} :
    decodeModes c k (r :: rs) = some ms ↔
      ∃ m ms', ms = m :: ms' ∧ digit c k = m.digit ∧ r.admits m = true ∧
        decodeModes c (k + 1) rs = some ms' := by
  simp only [decodeModes]
  rcases hm : Mode.ofDigit (digit c k) with _ | m
  · simp only [reduceCtorEq, false_iff]
    rintro ⟨m, ms', -, h, -⟩
    rw [ofDigit_some.2 h] at hm; simp at hm
  · have hd := ofDigit_some.1 hm
    have inj : ∀ m', digit c k = m'.digit → m' = m := fun m' h => by
      have := ofDigit_some.2 h; rw [hm] at this; exact (Option.some.inj this).symm
    by_cases ha : r.admits m = true
    · rcases hr : decodeModes c (k + 1) rs with _ | ms'
      · simp [ha]
      · simp only [ha, if_true]
        constructor
        · intro h; exact ⟨m, ms', (Option.some.inj h).symm, hd, ha, rfl⟩
        · rintro ⟨m', ms'', rfl, h, -, h'⟩
          rw [inj m' h, Option.some.inj h']
    · simp only [ha]
      simp only [Bool.false_eq_true, if_false, reduceCtorEq, false_iff]
      rintro ⟨m', ms'', -, h, h2, -⟩
      rw [inj m' h] at h2; exact ha h2

theorem decodeModes_nil {c k : Nat} {ms : List Mode} :
    decodeModes c k [] = some ms ↔ ms = [] := by simp [decodeModes, eq_comm]

/-- The decoder accepts a cell exactly when each of its checks passes (30_encoding.md R79). -/
theorem decodeOpcode_ok {c : Int} {f : OpcodeFields} :
    decodeOpcode c = .ok f ↔ 0 ≤ c ∧ c.toNat % 100 = f.op.code ∧
      decodeModes c.toNat 2 f.op.roles = some f.modes ∧ c.toNat / 10 ^ (f.op.paramCount + 2) = 0 := by
  unfold decodeOpcode
  obtain ⟨op, modes⟩ := f
  split
  · simp; omega
  · next h =>
    have h0 : 0 ≤ c := by omega
    split
    · next hc =>
      simp only [reduceCtorEq, false_iff]
      rintro ⟨-, h1, -⟩
      rw [ofCode_some.2 h1] at hc; simp at hc
    · next op' hc =>
      have hcode := ofCode_some.1 hc
      have inj : c.toNat % 100 = op.code → op' = op := fun h => by
        have := ofCode_some.2 h; rw [hc] at this; exact Option.some.inj this
      split
      · next hm =>
        simp only [reduceCtorEq, false_iff]
        rintro ⟨-, h1, h2, -⟩
        obtain rfl := inj h1; rw [hm] at h2; simp at h2
      · next modes' hm =>
        split
        · next hh =>
          simp only [Except.ok.injEq, OpcodeFields.mk.injEq]
          constructor
          · rintro ⟨rfl, rfl⟩; exact ⟨h0, hcode, hm, hh⟩
          · rintro ⟨-, h1, h2, -⟩
            obtain rfl := inj h1; rw [hm] at h2; exact ⟨rfl, Option.some.inj h2⟩
        · next hh =>
          simp only [reduceCtorEq, false_iff]
          rintro ⟨-, h1, -, h3⟩
          obtain rfl := inj h1; exact hh h3

end Sys2Proof
end

