-- ==== Sys2Proof/Laws/State.lean ====
section
/-! SUPPORT. One lemma per field per named update of the state: what the field is after the update. Later
proofs never unfold a record update. -/

namespace Sys2Proof.Machine

variable (s : State)

@[simp] theorem store_cfg (a : Nat) (v : Int) : (s.store a v).cfg = s.cfg := rfl
@[simp] theorem store_mem (a : Nat) (v : Int) : (s.store a v).mem = s.mem.write a v := rfl
@[simp] theorem store_ip (a : Nat) (v : Int) : (s.store a v).ip = s.ip := rfl
@[simp] theorem store_rb (a : Nat) (v : Int) : (s.store a v).rb = s.rb := rfl
@[simp] theorem store_status (a : Nat) (v : Int) : (s.store a v).status = s.status := rfl
@[simp] theorem store_faultCause (a : Nat) (v : Int) : (s.store a v).faultCause = s.faultCause := rfl
@[simp] theorem store_faultIp (a : Nat) (v : Int) : (s.store a v).faultIp = s.faultIp := rfl
@[simp] theorem store_faultInfo (a : Nat) (v : Int) : (s.store a v).faultInfo = s.faultInfo := rfl
@[simp] theorem store_faultOrigin (a : Nat) (v : Int) : (s.store a v).faultOrigin = s.faultOrigin := rfl
@[simp] theorem store_inQ (a : Nat) (v : Int) : (s.store a v).inQ = s.inQ := rfl
@[simp] theorem store_outLog (a : Nat) (v : Int) : (s.store a v).outLog = s.outLog := rfl
@[simp] theorem store_outCur (a : Nat) (v : Int) : (s.store a v).outCur = s.outCur := rfl

@[simp] theorem setIp_cfg (v : Int) : (s.setIp v).cfg = s.cfg := rfl
@[simp] theorem setIp_mem (v : Int) : (s.setIp v).mem = s.mem := rfl
@[simp] theorem setIp_ip (v : Int) : (s.setIp v).ip = v := rfl
@[simp] theorem setIp_rb (v : Int) : (s.setIp v).rb = s.rb := rfl
@[simp] theorem setIp_status (v : Int) : (s.setIp v).status = s.status := rfl
@[simp] theorem setIp_faultCause (v : Int) : (s.setIp v).faultCause = s.faultCause := rfl
@[simp] theorem setIp_faultIp (v : Int) : (s.setIp v).faultIp = s.faultIp := rfl
@[simp] theorem setIp_faultInfo (v : Int) : (s.setIp v).faultInfo = s.faultInfo := rfl
@[simp] theorem setIp_faultOrigin (v : Int) : (s.setIp v).faultOrigin = s.faultOrigin := rfl
@[simp] theorem setIp_inQ (v : Int) : (s.setIp v).inQ = s.inQ := rfl
@[simp] theorem setIp_outLog (v : Int) : (s.setIp v).outLog = s.outLog := rfl
@[simp] theorem setIp_outCur (v : Int) : (s.setIp v).outCur = s.outCur := rfl

@[simp] theorem setRb_cfg (v : Int) : (s.setRb v).cfg = s.cfg := rfl
@[simp] theorem setRb_mem (v : Int) : (s.setRb v).mem = s.mem := rfl
@[simp] theorem setRb_ip (v : Int) : (s.setRb v).ip = s.ip := rfl
@[simp] theorem setRb_rb (v : Int) : (s.setRb v).rb = v := rfl
@[simp] theorem setRb_status (v : Int) : (s.setRb v).status = s.status := rfl
@[simp] theorem setRb_faultCause (v : Int) : (s.setRb v).faultCause = s.faultCause := rfl
@[simp] theorem setRb_faultIp (v : Int) : (s.setRb v).faultIp = s.faultIp := rfl
@[simp] theorem setRb_faultInfo (v : Int) : (s.setRb v).faultInfo = s.faultInfo := rfl
@[simp] theorem setRb_faultOrigin (v : Int) : (s.setRb v).faultOrigin = s.faultOrigin := rfl
@[simp] theorem setRb_inQ (v : Int) : (s.setRb v).inQ = s.inQ := rfl
@[simp] theorem setRb_outLog (v : Int) : (s.setRb v).outLog = s.outLog := rfl
@[simp] theorem setRb_outCur (v : Int) : (s.setRb v).outCur = s.outCur := rfl

@[simp] theorem setStatus_cfg (v : Status) : (s.setStatus v).cfg = s.cfg := rfl
@[simp] theorem setStatus_mem (v : Status) : (s.setStatus v).mem = s.mem := rfl
@[simp] theorem setStatus_ip (v : Status) : (s.setStatus v).ip = s.ip := rfl
@[simp] theorem setStatus_rb (v : Status) : (s.setStatus v).rb = s.rb := rfl
@[simp] theorem setStatus_status (v : Status) : (s.setStatus v).status = v := rfl
@[simp] theorem setStatus_faultCause (v : Status) : (s.setStatus v).faultCause = s.faultCause := rfl
@[simp] theorem setStatus_faultIp (v : Status) : (s.setStatus v).faultIp = s.faultIp := rfl
@[simp] theorem setStatus_faultInfo (v : Status) : (s.setStatus v).faultInfo = s.faultInfo := rfl
@[simp] theorem setStatus_faultOrigin (v : Status) : (s.setStatus v).faultOrigin = s.faultOrigin := rfl
@[simp] theorem setStatus_inQ (v : Status) : (s.setStatus v).inQ = s.inQ := rfl
@[simp] theorem setStatus_outLog (v : Status) : (s.setStatus v).outLog = s.outLog := rfl
@[simp] theorem setStatus_outCur (v : Status) : (s.setStatus v).outCur = s.outCur := rfl

@[simp] theorem pushOut_cfg (v : Int) : (s.pushOut v).cfg = s.cfg := rfl
@[simp] theorem pushOut_mem (v : Int) : (s.pushOut v).mem = s.mem := rfl
@[simp] theorem pushOut_ip (v : Int) : (s.pushOut v).ip = s.ip := rfl
@[simp] theorem pushOut_rb (v : Int) : (s.pushOut v).rb = s.rb := rfl
@[simp] theorem pushOut_status (v : Int) : (s.pushOut v).status = s.status := rfl
@[simp] theorem pushOut_faultCause (v : Int) : (s.pushOut v).faultCause = s.faultCause := rfl
@[simp] theorem pushOut_faultIp (v : Int) : (s.pushOut v).faultIp = s.faultIp := rfl
@[simp] theorem pushOut_faultInfo (v : Int) : (s.pushOut v).faultInfo = s.faultInfo := rfl
@[simp] theorem pushOut_faultOrigin (v : Int) : (s.pushOut v).faultOrigin = s.faultOrigin := rfl
@[simp] theorem pushOut_inQ (v : Int) : (s.pushOut v).inQ = s.inQ := rfl
@[simp] theorem pushOut_outLog (v : Int) : (s.pushOut v).outLog = s.outLog ++ [v] := rfl
@[simp] theorem pushOut_outCur (v : Int) : (s.pushOut v).outCur = s.outCur := rfl

@[simp] theorem setInQ_cfg (q : List Int) : (s.setInQ q).cfg = s.cfg := rfl
@[simp] theorem setInQ_mem (q : List Int) : (s.setInQ q).mem = s.mem := rfl
@[simp] theorem setInQ_ip (q : List Int) : (s.setInQ q).ip = s.ip := rfl
@[simp] theorem setInQ_rb (q : List Int) : (s.setInQ q).rb = s.rb := rfl
@[simp] theorem setInQ_status (q : List Int) : (s.setInQ q).status = s.status := rfl
@[simp] theorem setInQ_faultCause (q : List Int) : (s.setInQ q).faultCause = s.faultCause := rfl
@[simp] theorem setInQ_faultIp (q : List Int) : (s.setInQ q).faultIp = s.faultIp := rfl
@[simp] theorem setInQ_faultInfo (q : List Int) : (s.setInQ q).faultInfo = s.faultInfo := rfl
@[simp] theorem setInQ_faultOrigin (q : List Int) : (s.setInQ q).faultOrigin = s.faultOrigin := rfl
@[simp] theorem setInQ_inQ (q : List Int) : (s.setInQ q).inQ = q := rfl
@[simp] theorem setInQ_outLog (q : List Int) : (s.setInQ q).outLog = s.outLog := rfl
@[simp] theorem setInQ_outCur (q : List Int) : (s.setInQ q).outCur = s.outCur := rfl

@[simp] theorem suspend_cfg : (s.suspend).cfg = s.cfg := rfl
@[simp] theorem suspend_mem : (s.suspend).mem = s.mem := rfl
@[simp] theorem suspend_ip : (s.suspend).ip = s.ip := rfl
@[simp] theorem suspend_rb : (s.suspend).rb = s.rb := rfl
@[simp] theorem suspend_status : (s.suspend).status = .awaitingInput := rfl
@[simp] theorem suspend_faultCause : (s.suspend).faultCause = s.faultCause := rfl
@[simp] theorem suspend_faultIp : (s.suspend).faultIp = s.faultIp := rfl
@[simp] theorem suspend_faultInfo : (s.suspend).faultInfo = s.faultInfo := rfl
@[simp] theorem suspend_faultOrigin : (s.suspend).faultOrigin = s.faultOrigin := rfl
@[simp] theorem suspend_inQ : (s.suspend).inQ = s.inQ := rfl
@[simp] theorem suspend_outLog : (s.suspend).outLog = s.outLog := rfl
@[simp] theorem suspend_outCur : (s.suspend).outCur = s.outCur := rfl

/-! Fault entry keeps every field but STATUS and the record (60_exceptions.md R156). -/

variable (e : FaultReport) (o : FaultOrigin)

theorem enterFault_of_faulted (h : s.status = .faulted) : enterFault e o s = s := if_pos h

@[simp] theorem enterFault_cfg : (enterFault e o s).cfg = s.cfg := by
  unfold enterFault; split <;> rfl
@[simp] theorem enterFault_mem : (enterFault e o s).mem = s.mem := by
  unfold enterFault; split <;> rfl
@[simp] theorem enterFault_ip : (enterFault e o s).ip = s.ip := by
  unfold enterFault; split <;> rfl
@[simp] theorem enterFault_rb : (enterFault e o s).rb = s.rb := by
  unfold enterFault; split <;> rfl
@[simp] theorem enterFault_inQ : (enterFault e o s).inQ = s.inQ := by
  unfold enterFault; split <;> rfl
@[simp] theorem enterFault_outLog : (enterFault e o s).outLog = s.outLog := by
  unfold enterFault; split <;> rfl
@[simp] theorem enterFault_outCur : (enterFault e o s).outCur = s.outCur := by
  unfold enterFault; split <;> rfl
@[simp] theorem enterFault_status : (enterFault e o s).status = .faulted := by
  unfold enterFault; split <;> simp_all

theorem enterFault_faultCause (h : s.status ≠ .faulted) : (enterFault e o s).faultCause = e.cause := by
  simp [enterFault, h]
theorem enterFault_faultIp (h : s.status ≠ .faulted) : (enterFault e o s).faultIp = s.ip := by
  simp [enterFault, h]
theorem enterFault_faultInfo (h : s.status ≠ .faulted) : (enterFault e o s).faultInfo = e.info := by
  simp [enterFault, h]
theorem enterFault_faultOrigin (h : s.status ≠ .faulted) : (enterFault e o s).faultOrigin = o := by
  simp [enterFault, h]

end Sys2Proof.Machine
end

