-- ==== Sys2Proof/Laws/Ops.lean ====
section
/-! SUPPORT. One lemma per shared operation, saying once everything it can do: its success and its
failure, with the report it makes. -/

namespace Sys2Proof.Machine

/-- An atomic effect ends in the state it computed or in fault entry. -/
theorem atomically_next {s t : State} {e : Except FaultReport State} :
    atomically s e = .next t ↔ e = .ok t ∨ ∃ r, e = .error r ∧ t = enterFault r .core s := by
  cases e <;> simp [atomically, eq_comm]

theorem checkAddress_ok {cfg : Config} {a : Int} {n : Nat} :
    checkAddress cfg a = .ok n ↔ 0 ≤ a ∧ n = a.toNat ∧ cfg.inRange a.toNat = true := by
  unfold checkAddress
  grind

/-- The address checks fail for a negative address, or for one ADDR_LIMIT shuts out. -/
theorem checkAddress_error {cfg : Config} {a : Int} {e : FaultReport} :
    checkAddress cfg a = .error e ↔
      (a < 0 ∧ e = ⟨.invalidAddress, a⟩) ∨
      (0 ≤ a ∧ cfg.inRange a.toNat = false ∧ e = ⟨.resourceExhausted, a⟩) := by
  unfold checkAddress
  grind

theorem checkFits_ok {cfg : Config} {v w : Int} :
    checkFits cfg v = .ok w ↔ w = v ∧ cfg.fits v = true := by
  unfold checkFits; grind

theorem checkFits_error {cfg : Config} {v : Int} {e : FaultReport} :
    checkFits cfg v = .error e ↔ cfg.fits v = false ∧ e = ⟨.valueOverflow, v⟩ := by
  unfold checkFits; grind

/-- MemRead succeeds exactly at a checked address and then gives the cell. -/
theorem memRead_ok {s : State} {a v : Int} :
    memRead s a = .ok v ↔ ∃ n, checkAddress s.cfg a = .ok n ∧ v = s.mem.read n := by
  unfold memRead; grind

theorem memRead_error {s : State} {a : Int} {e : FaultReport} :
    memRead s a = .error e ↔ checkAddress s.cfg a = .error e := by
  unfold memRead; grind

/-- MemWrite succeeds exactly at a checked address and then stores the cell. -/
theorem memWrite_ok {s t : State} {a v : Int} :
    memWrite s a v = .ok t ↔ ∃ n, checkAddress s.cfg a = .ok n ∧ t = s.store n v := by
  unfold memWrite; grind

theorem advancedIp_ok {s : State} {w : Nat} {v : Int} :
    advancedIp s w = .ok v ↔ v = s.ip + w ∧ s.cfg.fits (s.ip + w) = true := checkFits_ok

theorem advancedIp_error {s : State} {w : Nat} {e : FaultReport} :
    advancedIp s w = .error e ↔ s.cfg.fits (s.ip + w) = false ∧ e = ⟨.valueOverflow, s.ip + w⟩ :=
  checkFits_error

theorem checkOutSpace_ok {s : State} {v : Int} {u : Unit} :
    checkOutSpace s v = .ok u ↔
      Config.full s.cfg.outDepth (s.outLog.length - s.outCur) = false := by
  unfold checkOutSpace; grind

theorem checkOutSpace_error {s : State} {v : Int} {e : FaultReport} :
    checkOutSpace s v = .error e ↔
      Config.full s.cfg.outDepth (s.outLog.length - s.outCur) = true ∧
        e = ⟨.resourceExhausted, v⟩ := by
  unfold checkOutSpace; grind

/-- In the reference hardware every value fits and every address from 0 on exists (00_scope.md R6, R9). -/
@[simp] theorem reference_fits (v : Int) : Config.reference.fits v = true := rfl

@[simp] theorem reference_inRange (a : Nat) : Config.reference.inRange a = true := rfl

@[simp] theorem truthCell_true : truthCell true = 1 := rfl

@[simp] theorem truthCell_false : truthCell false = 0 := rfl

end Sys2Proof.Machine
end

