-- ==== Sys2Proof/Laws/Operands.lean ====
section
/-! SUPPORT. What operand resolution gives: one inversion per function. -/

namespace Sys2Proof.Machine

/-- A read operand that resolves is a memory cell at a checked address or an immediate value. -/
theorem readOperand_ok {s : State} {p : Param} {v : Int} :
    readOperand s p = .ok v ↔
      (p.mode = .position ∧ memRead s p.raw = .ok v) ∨
      (p.mode = .immediate ∧ v = p.raw) ∨
      (p.mode = .relative ∧ s.cfg.fits (p.raw + s.rb) = true ∧
        memRead s (p.raw + s.rb) = .ok v) := by
  obtain ⟨m, raw⟩ := p
  cases m
  · simp [readOperand]
  · simp [readOperand, Eq.comm (a := raw)]
  · simp only [readOperand, relativeAddress, checkFits]
    by_cases h : s.cfg.fits (raw + s.rb) = true <;> simp [h]

/-- A write target that resolves is a checked address in position or relative mode. -/
theorem writeAddress_ok {s : State} {c : Int} {p : Param} {n : Nat} :
    writeAddress s c p = .ok n ↔
      (p.mode = .position ∧ checkAddress s.cfg p.raw = .ok n) ∨
      (p.mode = .relative ∧ s.cfg.fits (p.raw + s.rb) = true ∧
        checkAddress s.cfg (p.raw + s.rb) = .ok n) := by
  obtain ⟨m, raw⟩ := p
  cases m
  · simp [writeAddress]
  · simp [writeAddress]
  · simp only [writeAddress, relativeAddress, checkFits]
    by_cases h : s.cfg.fits (raw + s.rb) = true <;> simp [h]

/-- A resolved write address exists in this realisation. -/
theorem writeAddress_inRange {s : State} {c : Int} {p : Param} {n : Nat}
    (h : writeAddress s c p = .ok n) : s.cfg.inRange n = true := by
  rcases writeAddress_ok.1 h with ⟨_, hc⟩ | ⟨_, _, hc⟩ <;>
    · obtain ⟨_, rfl, hr⟩ := checkAddress_ok.1 hc
      exact hr

theorem readTwo_ok {s : State} {a b : Param} {x y : Int} :
    readTwo s a b = .ok (x, y) ↔ readOperand s a = .ok x ∧ readOperand s b = .ok y := by
  unfold readTwo
  split
  · simp_all
  · split <;> simp_all

theorem readTwoAndTarget_ok {s : State} {c : Int} {a b dst : Param} {x y : Int} {d : Nat} :
    readTwoAndTarget s c a b dst = .ok (x, y, d) ↔
      readOperand s a = .ok x ∧ readOperand s b = .ok y ∧ writeAddress s c dst = .ok d := by
  unfold readTwoAndTarget
  split
  · next h => simp only [reduceCtorEq, false_iff]; intro h'; simp_all [readTwo_ok.2 ⟨h'.1, h'.2.1⟩]
  · next h =>
    obtain ⟨h1, h2⟩ := readTwo_ok.1 h
    split <;> simp_all

end Sys2Proof.Machine
end

