-- ==== Sys2Proof/Laws/Exec.lean ====
section
/-! SUPPORT. What the shared effects of the meanings can do when they succeed, and that every
instruction answers a next state. -/

namespace Sys2Proof.Machine

theorem storeResult_ok {op : BaseOp} {f : Int → Int → Except FaultReport Int} {a b dst : Param}
    {s t : State} :
    storeResult op f a b dst s = .ok t ↔
      ∃ x y d r, readOperand s a = .ok x ∧ readOperand s b = .ok y ∧
        writeAddress s (opcodeCell op [a, b, dst]) dst = .ok d ∧ f x y = .ok r ∧
        s.cfg.fits (s.ip + op.width) = true ∧ t = (s.store d r).setIp (s.ip + op.width) := by
  unfold storeResult
  split
  · next h =>
    simp only [reduceCtorEq, false_iff]
    rintro ⟨x, y, d, r, ha, hb, hd, -⟩
    simp_all [readTwoAndTarget_ok.2 ⟨ha, hb, hd⟩]
  · next x y d h =>
    obtain ⟨ha, hb, hd⟩ := readTwoAndTarget_ok.1 h
    simp only [ha, hb, hd, Except.ok.injEq]
    constructor
    · intro h
      split at h
      · simp at h
      · next r hr =>
        split at h
        · simp at h
        · next ip hip =>
          obtain ⟨rfl, hf⟩ := advancedIp_ok.1 hip
          exact ⟨x, y, d, r, rfl, rfl, rfl, hr, hf, by simpa using h.symm⟩
    · rintro ⟨_, _, _, r, rfl, rfl, rfl, hr, hf, rfl⟩
      simp [hr, advancedIp_ok.2 ⟨rfl, hf⟩]

theorem conditionalJump_ok {op : BaseOp} {fires : Int → Bool} {a target : Param} {s t : State} :
    conditionalJump op fires a target s = .ok t ↔
      ∃ x y, readOperand s a = .ok x ∧ readOperand s target = .ok y ∧
        ((fires x = true ∧ t = s.setIp y) ∨
         (fires x = false ∧ s.cfg.fits (s.ip + op.width) = true ∧ t = s.setIp (s.ip + op.width))) := by
  unfold conditionalJump
  split
  · next h =>
    simp only [reduceCtorEq, false_iff]
    rintro ⟨x, y, ha, hb, -⟩
    simp_all [readTwo_ok.2 ⟨ha, hb⟩]
  · next x y h =>
    obtain ⟨ha, hb⟩ := readTwo_ok.1 h
    simp only [ha, hb, Except.ok.injEq]
    constructor
    · intro h
      refine ⟨x, y, rfl, rfl, ?_⟩
      split at h
      · next hx => exact .inl ⟨hx, by simpa using h.symm⟩
      · next hx =>
        split at h
        · simp at h
        · next ip hip =>
          obtain ⟨rfl, hf⟩ := advancedIp_ok.1 hip
          exact .inr ⟨by simpa using hx, hf, by simpa using h.symm⟩
    · rintro ⟨_, _, rfl, rfl, ⟨hx, rfl⟩ | ⟨hx, hf, rfl⟩⟩
      · simp [hx]
      · simp [hx, advancedIp_ok.2 ⟨rfl, hf⟩]

/-- The advanced instruction pointer of the two-cell instructions IN, OUT and ARB. -/
theorem advancedIp_two (s : State) :
    advancedIp s 2 = if s.cfg.fits (s.ip + 2) then .ok (s.ip + 2)
      else .error ⟨.valueOverflow, s.ip + 2⟩ := rfl

theorem inputEffect_ok {dst : Param} {s t : State} :
    inputEffect dst s = .ok t ↔
      ∃ d, writeAddress s (opcodeCell .inp [dst]) dst = .ok d ∧ s.cfg.fits (s.ip + 2) = true ∧
        ((s.inQ = [] ∧ t = s.suspend) ∨
         ∃ v rest, s.inQ = v :: rest ∧ t = ((s.setInQ rest).store d v).setIp (s.ip + 2)) := by
  unfold inputEffect
  rw [show BaseOp.inp.width = 2 from rfl, advancedIp_two]
  rcases writeAddress s (opcodeCell .inp [dst]) dst with e | d
  · simp
  · by_cases hf : s.cfg.fits (s.ip + 2) = true <;> rcases hq : s.inQ with _ | ⟨v, rest⟩ <;>
      simp [hf, eq_comm (b := t)]

theorem outputEffect_ok {a : Param} {s t : State} :
    outputEffect a s = .ok t ↔
      ∃ x, readOperand s a = .ok x ∧
        Config.full s.cfg.outDepth (s.outLog.length - s.outCur) = false ∧
        s.cfg.fits (s.ip + 2) = true ∧ t = (s.pushOut x).setIp (s.ip + 2) := by
  unfold outputEffect
  rw [show BaseOp.out.width = 2 from rfl, advancedIp_two]
  rcases readOperand s a with e | x
  · simp
  · unfold checkOutSpace
    by_cases hf : s.cfg.fits (s.ip + 2) = true <;>
      by_cases ho : Config.full s.cfg.outDepth (s.outLog.length - s.outCur) = true <;>
      simp [hf, ho, eq_comm (b := t)]

theorem adjustEffect_ok {a : Param} {s t : State} :
    adjustEffect a s = .ok t ↔
      ∃ x, readOperand s a = .ok x ∧ s.cfg.fits (s.rb + x) = true ∧
        s.cfg.fits (s.ip + 2) = true ∧ t = (s.setRb (s.rb + x)).setIp (s.ip + 2) := by
  unfold adjustEffect
  rw [show BaseOp.arb.width = 2 from rfl, advancedIp_two]
  rcases readOperand s a with e | x
  · simp
  · unfold checkFits
    by_cases hf : s.cfg.fits (s.ip + 2) = true <;> by_cases hr : s.cfg.fits (s.rb + x) = true <;>
      simp [hf, hr, eq_comm (b := t)]

/-- The effect of an instruction, before `atomically` turns a failing check into fault entry. -/
def effectOf (i : Instr) (s : State) : Except FaultReport State :=
  match i with
  | .add a b dst => storeResult .add (fun x y => checkFits s.cfg (x + y)) a b dst s
  | .mul a b dst => storeResult .mul (fun x y => checkFits s.cfg (x * y)) a b dst s
  | .inp dst => inputEffect dst s
  | .out a => outputEffect a s
  | .jt a t => conditionalJump .jt firesOnTrue a t s
  | .jf a t => conditionalJump .jf firesOnFalse a t s
  | .lt a b dst => storeResult .lt (fun x y => .ok (lessThan x y)) a b dst s
  | .eq a b dst => storeResult .eq (fun x y => .ok (equals x y)) a b dst s
  | .arb a => adjustEffect a s
  | .halt => .ok (s.setStatus .halted)

/-! The effect of each instruction, to rewrite with. -/

theorem effectOf_add (a b dst : Param) (s : State) :
    effectOf (.add a b dst) s = storeResult .add (fun x y => checkFits s.cfg (x + y)) a b dst s := rfl
theorem effectOf_mul (a b dst : Param) (s : State) :
    effectOf (.mul a b dst) s = storeResult .mul (fun x y => checkFits s.cfg (x * y)) a b dst s := rfl
theorem effectOf_inp (dst : Param) (s : State) :
    effectOf (.inp dst) s = inputEffect dst s := rfl
theorem effectOf_out (a : Param) (s : State) :
    effectOf (.out a) s = outputEffect a s := rfl
theorem effectOf_jt (a t : Param) (s : State) :
    effectOf (.jt a t) s = conditionalJump .jt firesOnTrue a t s := rfl
theorem effectOf_jf (a t : Param) (s : State) :
    effectOf (.jf a t) s = conditionalJump .jf firesOnFalse a t s := rfl
theorem effectOf_lt (a b dst : Param) (s : State) :
    effectOf (.lt a b dst) s = storeResult .lt (fun x y => .ok (lessThan x y)) a b dst s := rfl
theorem effectOf_eq (a b dst : Param) (s : State) :
    effectOf (.eq a b dst) s = storeResult .eq (fun x y => .ok (equals x y)) a b dst s := rfl
theorem effectOf_arb (a : Param) (s : State) :
    effectOf (.arb a) s = adjustEffect a s := rfl
theorem effectOf_halt (s : State) :
    effectOf .halt s = .ok (s.setStatus .halted) := rfl

/-- Executing an instruction is its effect made atomic. -/
theorem exec_eq_atomically (i : Instr) (s : State) : exec i s = atomically s (effectOf i s) := by
  cases i <;> rfl

/-- What executing an instruction can do: complete with its effect, or take a fault from the state
before it. -/
theorem exec_cases {i : Instr} {s t : State} :
    exec i s = .next t ↔
      effectOf i s = .ok t ∨ ∃ e, effectOf i s = .error e ∧ t = enterFault e .core s := by
  rw [exec_eq_atomically, atomically_next]

end Sys2Proof.Machine
end

