-- ==== Sys2Proof/Laws/Step.lean ====
section
/-! SUPPORT. One inversion of the step function and of the host's loop, and the fetch in terms of the
decoder. -/

namespace Sys2Proof.Machine

/-- What a step can do: idle, take a fetch fault, or execute the fetched instruction. -/
theorem step_cases {s t : State} :
    step s = .next t ↔
      (s.status ≠ .running ∧ t = s) ∨
      (s.status = .running ∧ ∃ e, fetchInstr s = .error e ∧ t = enterFault e .core s) ∨
      (s.status = .running ∧ ∃ i, fetchInstr s = .ok i ∧ exec i s = .next t) := by
  unfold step
  by_cases h : s.status = .running
  · rcases hf : fetchInstr s with e | i
    · simp [h, eq_comm (b := t)]
    · simp [h]
  · simp [h, eq_comm (b := t)]

/-- A step that runs an instruction whose effect succeeds. -/
theorem step_completes {s t : State} {i : Instr} (hr : s.status = .running)
    (hi : fetchInstr s = .ok i) (ht : effectOf i s = .ok t) : step s = .next t :=
  step_cases.2 (.inr (.inr ⟨hr, i, hi, exec_cases.2 (.inl ht)⟩))

/-- A fetch that succeeds has read a legal opcode cell and every parameter cell. -/
theorem fetchInstr_ok {s : State} {i : Instr} :
    fetchInstr s = .ok i ↔
      ∃ c f raws, memRead s s.ip = .ok c ∧ decodeOpcode c = .ok f ∧
        fetchCells s (s.ip + 1) f.op.paramCount = .ok raws ∧ i = f.assemble raws := by
  unfold fetchInstr
  rcases memRead s s.ip with e | c
  · simp
  · rcases hd : decodeOpcode c with e | f
    · simp [hd]
    · rcases hr : fetchCells s (s.ip + 1) f.op.paramCount with e | raws
      · simp [hd, hr]
      · simp [hd, hr, eq_comm (b := i)]

/-- The cells a parameter fetch returns are those of memory, in order. -/
theorem fetchCells_ok {s : State} {n : Nat} {a : Int} {vs : List Int}
    (h : fetchCells s a n = .ok vs) :
    vs.length = n ∧ ∀ k (hk : k < vs.length), memRead s (a + k) = .ok vs[k] := by
  induction n generalizing a vs with
  | zero => simp [fetchCells] at h; subst h; simp
  | succ n ih =>
    unfold fetchCells at h
    split at h
    · simp at h
    · next v hv =>
      split at h
      · simp at h
      · next ws hws =>
        obtain ⟨hl, hc⟩ := ih hws
        obtain rfl : v :: ws = vs := by simpa using h
        refine ⟨by simp [hl], fun k hk => ?_⟩
        cases k with
        | zero => simpa using hv
        | succ k =>
          have := hc k (by simpa using hk)
          simp only [List.getElem_cons_succ, Nat.cast_add, Nat.cast_one, ← this]
          congr 1; ring

/-- The cells a fetch reads depend on memory and the realisation alone. -/
theorem fetchCells_congr {s u : State} (hc : u.cfg = s.cfg) (hm : u.mem = s.mem) (n : Nat) (a : Int) :
    fetchCells u a n = fetchCells s a n := by
  induction n generalizing a with
  | zero => rfl
  | succ n ih => simp only [fetchCells, memRead, hc, hm, ih]

/-- A fetch depends on memory, IP and the realisation alone. -/
theorem fetchInstr_congr {s u : State} (hc : u.cfg = s.cfg) (hm : u.mem = s.mem) (hi : u.ip = s.ip) :
    fetchInstr u = fetchInstr s := by
  simp only [fetchInstr, memRead, hc, hm, hi, fetchCells_congr hc hm]

/-- One turn of RUN's loop on a RUNNING core. -/
theorem runLoop_succ {fuel : Nat} {s t : State} (hr : s.status = .running)
    (hs : step s = .next t) : runLoop (fuel + 1) s = runLoop fuel t := by
  simp [runLoop, hr, hs]

/-- RUN's loop returns at once when the core is not RUNNING. -/
theorem runLoop_stopped {fuel : Nat} {s : State} (h : s.status ≠ .running) :
    runLoop fuel s = some s := by
  cases fuel <;> simp [runLoop, h]

end Sys2Proof.Machine
end

