-- ==== Sys2Proof/Laws/HostPort.lean ====
section
/-! SUPPORT. One inversion of the host commands, and how a run of several steps unfolds. -/

namespace Sys2Proof.Machine

/-- Everything a command can do when it answers: one line per command and outcome. -/
theorem command_cases {fuel : Nat} {c : HostCommand} {s t : State} {r : Response}
    (h : command fuel c s = some (r, t)) :
    s.status ≠ .running ∧
    ((∃ p, c = .load p ∧ (t = s ∨ (p.all s.cfg.fits = true ∧
        s.cfg.holdsProgram p.length = true ∧ t = State.loaded s.cfg p))) ∨
     (∃ v, c = .feed v ∧ (t = s ∨ (Config.full s.cfg.inDepth s.inQ.length = false ∧
        s.cfg.fits v = true ∧ t = s.setInQ (s.inQ ++ [v])))) ∨
     (c = .run ∧ (t = s ∨ ((s.status = .ready ∨ s.status = .awaitingInput) ∧
        runLoop fuel (s.setStatus .running) = some t))) ∨
     (∃ b, c = .take b ∧ (t = s ∨ t = { s with outCur := s.outLog.length })) ∨
     ((∃ a, c = .peek a) ∧ t = s) ∨
     (((∃ a, c = .peek a) ∨ ∃ a v, c = .poke a v) ∧ ∃ e, hasFault s.cfg e.cause = true ∧
        t = enterFault e .host s) ∨
     (∃ a v, c = .poke a v ∧ (t = s ∨ ∃ n, checkAddress s.cfg a = .ok n ∧
        s.cfg.fits v = true ∧ t = s.store n v))) := by
  have ca : ∀ {a e}, checkAddress s.cfg a = .error e → hasFault s.cfg e.cause = true := by
    intro a e h; rcases checkAddress_error.1 h with ⟨-, rfl⟩ | ⟨-, hh, rfl⟩
    · rfl
    · simp only [hasFault]; rcases hL : s.cfg.addrLimit with _ | L
      · simp [Config.inRange, hL] at hh
      · simp
  unfold command at h
  split at h
  · simp at h
  · next hs =>
    refine ⟨hs, ?_⟩
    cases c with
    | load p =>
      refine .inl ⟨p, rfl, ?_⟩
      simp only [hostLoad, Option.some.injEq] at h
      split at h
      · next hc =>
        simp at h; simp only [Bool.and_eq_true] at hc; exact .inr ⟨hc.1, hc.2, h.2.symm⟩
      · simp at h; exact .inl h.2.symm
    | feed v =>
      refine .inr (.inl ⟨v, rfl, ?_⟩)
      simp only [hostFeed, Option.some.injEq] at h
      split at h
      · simp at h; exact .inl h.2.symm
      · next hc => simp at h; simp at hc; exact .inr ⟨hc.1, hc.2, h.2.symm⟩
    | run =>
      refine .inr (.inr (.inl ⟨rfl, ?_⟩))
      simp only [hostRun] at h
      split at h
      · next hst =>
        rcases hrl : runLoop fuel (s.setStatus .running) with _ | u
        · simp [hrl] at h
        · simp [hrl] at h; obtain ⟨-, -, -, rfl⟩ := h; exact .inr ⟨.inl hst, rfl⟩
      · next hst =>
        rcases hrl : runLoop fuel (s.setStatus .running) with _ | u
        · simp [hrl] at h
        · simp [hrl] at h; obtain ⟨-, -, -, rfl⟩ := h; exact .inr ⟨.inr hst, rfl⟩
      · simp at h; obtain ⟨-, -, -, rfl⟩ := h; exact .inl rfl
      · simp at h; obtain ⟨-, -, -, rfl⟩ := h; exact .inl rfl
      · simp at h
    | take b =>
      refine .inr (.inr (.inr (.inl ⟨b, rfl, ?_⟩)))
      simp only [hostTake, Option.some.injEq, Prod.mk.injEq] at h
      cases b
      · exact .inl h.2.symm
      · exact .inr h.2.symm
    | peek a =>
      simp only [hostPeek, Option.some.injEq] at h
      split at h
      · next e he => simp at h; exact .inr (.inr (.inr (.inr (.inr (.inl ⟨.inl ⟨a, rfl⟩, e, ca he, h.2.symm⟩)))))
      · simp at h; exact .inr (.inr (.inr (.inr (.inl ⟨⟨a, rfl⟩, h.2.symm⟩))))
    | poke a v =>
      simp only [hostPoke, Option.some.injEq] at h
      split at h
      · next e he => simp at h; exact .inr (.inr (.inr (.inr (.inr (.inl ⟨.inr ⟨a, v, rfl⟩, e, ca he, h.2.symm⟩)))))
      · next n hn =>
        refine .inr (.inr (.inr (.inr (.inr (.inr ⟨a, v, rfl, ?_⟩)))))
        split at h
        · next hf => simp at h; exact .inr ⟨n, hn, hf, h.2.symm⟩
        · simp at h; exact .inl h.2.symm

/-- Executing an instruction always answers a next state. -/
theorem exec_total (i : Instr) (s : State) : ∃ t, exec i s = .next t := by
  rw [exec_eq_atomically]
  cases effectOf i s <;> exact ⟨_, rfl⟩

/-- A step always answers a next state. -/
theorem step_total (s : State) : ∃ t, step s = .next t := by
  unfold step
  split
  · split
    · exact ⟨_, rfl⟩
    · exact exec_total _ _
  · exact ⟨_, rfl⟩

/-- A run of no steps. -/
theorem run_zero {s t : State} : Host.Core.run Sys2Proof.core 0 s = .next t ↔ t = s := by
  show Host.Outcome.next s = .next t ↔ _
  simp [eq_comm]

/-- A run of one step more. -/
theorem run_succ {n : Nat} {s t : State} :
    Host.Core.run Sys2Proof.core (n + 1) s = .next t ↔
      ∃ u, step s = .next u ∧ Host.Core.run Sys2Proof.core n u = .next t := by
  obtain ⟨u, hu⟩ := step_total s
  have : Host.Core.run Sys2Proof.core (n + 1) s = Host.Core.run Sys2Proof.core n u := by
    simp only [Host.Core.run, show core.step s = .next u from hu]
  simp [this, hu]

end Sys2Proof.Machine
end

