-- ==== Sys2Proof/Laws/Memory.lean ====
section
/-! SUPPORT. The laws of the memory array: what a read gives after a write, and that every memory
operation keeps the canonical form. -/

namespace Sys2Proof.Machine

/-- A cell below every listed address reads 0. -/
theorem Memory.read_eq_zero {m : Memory} {a : Nat} (h : ∀ c ∈ m, c.1 ≠ a) : m.read a = 0 := by
  induction m with
  | nil => rfl
  | cons c m ih =>
    have hne : a ≠ c.1 := fun e => h c (by simp) e.symm
    simpa [Memory.read, hne] using ih fun d hd => h d (by simp [hd])

theorem Memory.wf_tail {c : Nat × Int} {m : Memory} (h : Memory.wf (c :: m)) : Memory.wf m :=
  ⟨(List.pairwise_cons.1 h.1).2, fun d hd => h.2 d (by simp [hd])⟩

theorem Memory.head_lt {c : Nat × Int} {m : Memory} (h : Memory.wf (c :: m)) :
    ∀ d ∈ m, c.1 < d.1 := (List.pairwise_cons.1 h.1).1

/-- Every entry after a write is an old one or the one written. -/
theorem Memory.mem_write {m : Memory} {a : Nat} {v : Int} {c : Nat × Int}
    (h : c ∈ m.write a v) : c ∈ m ∨ (c = (a, v) ∧ v ≠ 0) := by
  induction m with
  | nil => by_cases hv : v = 0 <;> simp_all [Memory.write]
  | cons d m ih =>
    obtain ⟨b, w⟩ := d
    simp only [Memory.write] at h
    split at h
    · split at h <;> grind
    · split at h
      · split at h <;> grind
      · rcases List.mem_cons.1 h with rfl | h
        · simp
        · rcases ih h with h | h <;> simp_all

/-- A write keeps the canonical form. -/
theorem Memory.write_wf {m : Memory} (h : m.wf) (a : Nat) (v : Int) : (m.write a v).wf := by
  refine ⟨?_, fun c hc => ?_⟩
  · induction m with
    | nil => by_cases hv : v = 0 <;> simp [Memory.write, hv]
    | cons d m ih =>
      obtain ⟨b, w⟩ := d
      have htail := Memory.wf_tail h
      have hlt := Memory.head_lt h
      simp only [Memory.write]
      split
      · split
        · exact h.1
        · refine List.pairwise_cons.2 ⟨fun c hc => ?_, h.1⟩
          rcases List.mem_cons.1 hc with rfl | hc
          · assumption
          · have := hlt c hc; simp only at this ⊢; omega
      · split
        · split
          · exact htail.1
          · exact List.pairwise_cons.2 ⟨fun c hc => by have := hlt c hc; simp_all, htail.1⟩
        · refine List.pairwise_cons.2 ⟨fun c hc => ?_, ih htail⟩
          rcases Memory.mem_write hc with hc | ⟨rfl, _⟩
          · exact hlt c hc
          · simp only; omega
  · rcases Memory.mem_write hc with hc | ⟨rfl, hv⟩
    · exact h.2 c hc
    · exact hv

/-- The written cell reads the value written. -/
theorem Memory.read_write_same {m : Memory} (h : m.wf) (a : Nat) (v : Int) :
    (m.write a v).read a = v := by
  induction m with
  | nil => by_cases hv : v = 0 <;> simp [Memory.write, Memory.read, hv]
  | cons d m ih =>
    obtain ⟨b, w⟩ := d
    have hlt := Memory.head_lt h
    simp only [Memory.write]
    split
    · next hab =>
      split
      · next hv =>
        subst hv
        refine Memory.read_eq_zero fun c hc => ?_
        rcases List.mem_cons.1 hc with rfl | hc
        · simp only; omega
        · have := hlt c hc; simp only at this; omega
      · simp [Memory.read]
    · split
      · next hab =>
        split
        · next hv =>
          subst hv
          exact Memory.read_eq_zero fun c hc => by have := hlt c hc; simp only at this; omega
        · simp [Memory.read]
      · next hab => simpa [Memory.read, hab] using ih (Memory.wf_tail h)

/-- Every other cell reads as before. -/
theorem Memory.read_write_other {m : Memory} {a b : Nat} (v : Int) (hab : b ≠ a) :
    (m.write a v).read b = m.read b := by
  induction m with
  | nil => by_cases hv : v = 0 <;> simp [Memory.write, Memory.read, hv, hab]
  | cons d m ih =>
    obtain ⟨x, w⟩ := d
    simp only [Memory.write]
    split
    · split <;> simp [Memory.read, hab]
    · split
      · next hx => subst hx; split <;> simp [Memory.read, hab]
      · by_cases hb : b = x <;> simp [Memory.read, hb, ih]

/-- The cells of a loaded program lie at the load address or above. -/
theorem Memory.ofCells_ge {vs : List Int} {a : Nat} :
    ∀ c ∈ Memory.ofCells a vs, a ≤ c.1 ∧ c.2 ≠ 0 ∧ c.1 < a + vs.length ∧ c.2 ∈ vs := by
  induction vs generalizing a with
  | nil => simp [Memory.ofCells]
  | cons v vs ih =>
    intro c hc
    simp only [Memory.ofCells] at hc
    split at hc
    · obtain ⟨h1, h2, h3, h4⟩ := ih c hc
      exact ⟨by omega, h2, by simp only [List.length_cons]; omega, by simp [h4]⟩
    · rcases List.mem_cons.1 hc with rfl | hc
      · simp_all
      · obtain ⟨h1, h2, h3, h4⟩ := ih c hc
        exact ⟨by omega, h2, by simp only [List.length_cons]; omega, by simp [h4]⟩

/-- A loaded memory is in canonical form. -/
theorem Memory.ofCells_wf (a : Nat) (vs : List Int) : (Memory.ofCells a vs).wf := by
  refine ⟨?_, fun c hc => (Memory.ofCells_ge c hc).2.1⟩
  induction vs generalizing a with
  | nil => simp [Memory.ofCells]
  | cons v vs ih =>
    simp only [Memory.ofCells]
    split
    · exact ih (a + 1)
    · exact List.pairwise_cons.2
        ⟨fun c hc => by have := (Memory.ofCells_ge c hc).1; simp only; omega, ih (a + 1)⟩

/-- Placing cells keeps the canonical form. -/
theorem Memory.writeCells_wf {m : Memory} (h : m.wf) (a : Nat) (vs : List Int) :
    (m.writeCells a vs).wf := by
  induction vs generalizing m a with
  | nil => exact h
  | cons v vs ih => exact ih (Memory.write_wf h a v) (a + 1)

end Sys2Proof.Machine
end

