-- ==== Sys2Proof/Laws/PerInstr.lean ====
section
/-! SUPPORT. Statements made per instruction, one lemma for each constructor of `Instr`. -/

namespace Sys2Proof.Laws.EncodeLength

/-- The encoding of an instruction has as many cells as the instruction is wide, and its parameters are
as many as its roles and as NPARAMS says (30_encoding.md R70, R72, R73). -/
def Statement (i : Instr) : Prop :=
  (encode i).length = i.op.width ∧ i.params.length = i.op.roles.length ∧
    i.op.roles.length = i.op.paramCount

theorem add (a b dst : Param) : Statement (.add a b dst) := ⟨rfl, rfl, rfl⟩
theorem mul (a b dst : Param) : Statement (.mul a b dst) := ⟨rfl, rfl, rfl⟩
theorem inp (dst : Param) : Statement (.inp dst) := ⟨rfl, rfl, rfl⟩
theorem out (a : Param) : Statement (.out a) := ⟨rfl, rfl, rfl⟩
theorem jt (a t : Param) : Statement (.jt a t) := ⟨rfl, rfl, rfl⟩
theorem jf (a t : Param) : Statement (.jf a t) := ⟨rfl, rfl, rfl⟩
theorem lt (a b dst : Param) : Statement (.lt a b dst) := ⟨rfl, rfl, rfl⟩
theorem eq (a b dst : Param) : Statement (.eq a b dst) := ⟨rfl, rfl, rfl⟩
theorem arb (a : Param) : Statement (.arb a) := ⟨rfl, rfl, rfl⟩
theorem halt : Statement .halt := ⟨rfl, rfl, rfl⟩

end Sys2Proof.Laws.EncodeLength
end

