-- ==== Sys2Proof/Tests/Slice0.lean ====
section
/-! SUPPORT. Tests with results worked out from the spec's own tables and examples, each naming its source,
and a witness for the hypotheses of each statement. -/

namespace Sys2Proof.Tests

open Sys2Proof.Machine

/-- A RUNNING reference core with these cells at address 0. -/
def running (cells : List Int) : State :=
  { State.reset with mem := Memory.ofCells 0 cells, status := .running }

/-- The same core with these values in its input queue. -/
def fed (cells queue : List Int) : State := { running cells with inQ := queue }

/-- A finite realisation: 8-bit cells (-128 to 127), addresses 0 to 15, one place in each queue. -/
def small : Config := { cellBits := some 8, addrLimit := some 16, inDepth := some 1, outDepth := some 1 }

/-- A RUNNING core of that realisation with these cells at address 0. -/
def finite (cells : List Int) : State := { running cells with cfg := small }

def pos (v : Int) : Param := ⟨.position, v⟩
def imm (v : Int) : Param := ⟨.immediate, v⟩
def rel (v : Int) : Param := ⟨.relative, v⟩

/-! ### WellFormed refuses each ill-formed term (30_encoding.md R76) -/

theorem test_wf_add_refuses_immediate_target : (Instr.add (pos 0) (pos 0) (imm 0)).wf = false := by decide
theorem test_wf_mul_refuses_immediate_target : (Instr.mul (pos 0) (pos 0) (imm 0)).wf = false := by decide
theorem test_wf_in_refuses_immediate_target : (Instr.inp (imm 0)).wf = false := by decide
theorem test_wf_lt_refuses_immediate_target : (Instr.lt (pos 0) (pos 0) (imm 0)).wf = false := by decide
theorem test_wf_eq_refuses_immediate_target : (Instr.eq (pos 0) (pos 0) (imm 0)).wf = false := by decide
theorem test_wf_accepts_every_read_mode :
    (Instr.jt (imm 1) (rel (-2))).wf = true ∧ (Instr.out (imm 0)).wf = true ∧
      (Instr.add (imm 1) (rel 2) (rel 3)).wf = true := by decide

/-! ### Decoding: cells written out from 30_encoding.md R78 and the examples of R84 and 95_test_vectors.md -/

theorem test_decode_add : decode [1, 9, 10, 3] = .ok (.add (pos 9) (pos 10) (pos 3), []) := by decide
theorem test_decode_add_relative_target :
    decode [21101, 5, 6, 7] = .ok (.add (imm 5) (imm 6) (rel 7), []) := by decide
theorem test_decode_mul :
    decode [1002, 4, 3, 4, 33] = .ok (.mul (pos 4) (imm 3) (pos 4), [33]) := by decide
theorem test_decode_in : decode [3, 0, 99] = .ok (.inp (pos 0), [99]) := by decide
theorem test_decode_out : decode [204, -1] = .ok (.out (rel (-1)), []) := by decide
theorem test_decode_jt : decode [1105, -1, 7] = .ok (.jt (imm (-1)) (imm 7), []) := by decide
theorem test_decode_jf : decode [1006, 101, 0] = .ok (.jf (pos 101) (imm 0), []) := by decide
theorem test_decode_lt :
    decode [1107, -5, 3, 5] = .ok (.lt (imm (-5)) (imm 3) (pos 5), []) := by decide
theorem test_decode_eq :
    decode [1008, 100, 16, 101] = .ok (.eq (pos 100) (imm 16) (pos 101), []) := by decide
theorem test_decode_arb : decode [209, -4] = .ok (.arb (rel (-4)), []) := by decide
theorem test_decode_halt : decode [99] = .ok (.halt, []) := by decide

/-- 30_encoding.md R79's examples of IllegalOpcode. -/
theorem test_decode_illegal_opcode :
    [0, 10, 77, 98, -1, -99, 100, 1077].all
      (fun c : Int => decide (decodeOpcode c = .error (.illegalOpcode c))) = true := by decide

/-- 30_encoding.md R79's examples of InvalidParameterMode. -/
theorem test_decode_invalid_mode :
    [301, 103, 11101, 199, 100004].all
      (fun c : Int => decide (decodeOpcode c = .error (.invalidParameterMode c))) = true := by decide

/-- Cells the encoder writes for R84's examples. -/
theorem test_encode_examples :
    encode (.add (pos 9) (pos 10) (pos 3)) = [1, 9, 10, 3] ∧
      encode (.mul (imm 34915192) (imm 34915192) (pos 7)) = [1102, 34915192, 34915192, 7] ∧
      encode (.out (rel (-1))) = [204, -1] ∧ encode (.arb (imm 1)) = [109, 1] ∧
      encode (.jf (pos 101) (imm 0)) = [1006, 101, 0] := by decide

theorem test_table_word_add : decodeTableWord 24 1001 = some (.add (pos 0) (imm 0) (pos 0)) := by decide
theorem test_table_word_illegal : decodeTableWord 8 77 = none := by decide

/-- A word placed where the machine fetches is what the next step runs (log 11). -/
theorem test_placed_word_runs :
    step (State.reset.withFetchWord 8 99) = .next { (State.reset.withFetchWord 8 99) with status := .halted } :=
  rfl

/-! ### One step of each instruction (95_test_vectors.md) -/

/-- V-AR-1: `1101,100,-1,4,0`. -/
theorem test_add_negative_operand :
    ∃ t, step (running [1101, 100, -1, 4, 0]) = .next t ∧ t.mem.read 4 = 99 ∧ t.ip = 4 :=
  ⟨_, rfl, by decide, by decide⟩

/-- V-AR-5: `1,0,0,0,99` writes its own opcode cell and still advances by 4. -/
theorem test_add_own_opcode_cell :
    ∃ t, step (running [1, 0, 0, 0, 99]) = .next t ∧ t.mem.read 0 = 2 ∧ t.ip = 4 :=
  ⟨_, rfl, by decide, by decide⟩

/-- V-AR-4: `1102,4294967296,4294967296,5,99`, no 64-bit wrap. -/
theorem test_mul_no_wrap :
    ∃ t, step (running [1102, 4294967296, 4294967296, 5, 99]) = .next t ∧
      t.mem.read 5 = 18446744073709551616 := ⟨_, rfl, by decide⟩

/-- V-AR-3: `1102,-3,7,5,99`. -/
theorem test_mul_negative_product :
    ∃ t, step (running [1102, -3, 7, 5, 99]) = .next t ∧ t.mem.read 5 = -21 := ⟨_, rfl, by decide⟩

/-- V-IO-6: `3,1,99` fed 7 writes its own parameter cell. -/
theorem test_in_stores :
    ∃ t, step (fed [3, 1, 99] [7, 8]) = .next t ∧ t.mem.read 1 = 7 ∧ t.ip = 2 ∧ t.inQ = [8] :=
  ⟨_, rfl, by decide, by decide, by decide⟩

/-- V-IO-2: `3,0,4,0,99` with nothing fed suspends with IP and memory unchanged. -/
theorem test_in_suspends :
    ∃ t, step (running [3, 0, 4, 0, 99]) = .next t ∧ t.status = .awaitingInput ∧ t.ip = 0 ∧
      t.mem = Memory.ofCells 0 [3, 0, 4, 0, 99] := ⟨_, rfl, by decide, by decide, by decide⟩

/-- S2: `104,1125899906842624,99`. -/
theorem test_out_large_value :
    ∃ t, step (running [104, 1125899906842624, 99]) = .next t ∧ t.outLog = [1125899906842624] ∧
      t.ip = 2 := ⟨_, rfl, by decide, by decide⟩

/-- V-IO-7: `4,1000,99` outputs a cell never written. -/
theorem test_out_unwritten_cell :
    ∃ t, step (running [4, 1000, 99]) = .next t ∧ t.outLog = [0] := ⟨_, rfl, by decide⟩

/-- V-J-5: `1105,1,-5`: the jump completes. -/
theorem test_jt_negative_target :
    ∃ t, step (running [1105, 1, -5]) = .next t ∧ t.ip = -5 ∧ t.status = .running :=
  ⟨_, rfl, by decide, by decide⟩

/-- V-J-6: `5,3,-1,0,99`: the target is resolved although the jump does not fire. -/
theorem test_jt_resolves_target :
    ∃ t, step (running [5, 3, -1, 0, 99]) = .next t ∧ t.status = .faulted ∧
      t.faultCause = .invalidAddress ∧ t.faultIp = 0 ∧ t.faultInfo = -1 :=
  ⟨_, rfl, by decide, by decide, by decide, by decide⟩

/-- V-J-3 and V-J-4: `1106,0,7` fires, `1106,-1,7` falls through. -/
theorem test_jf_fires_on_zero :
    ∃ t, step (running [1106, 0, 7, 99]) = .next t ∧ t.ip = 7 := ⟨_, rfl, by decide⟩
theorem test_jf_falls_through :
    ∃ t, step (running [1106, -1, 7, 99]) = .next t ∧ t.ip = 3 := ⟨_, rfl, by decide⟩

/-- V-CMP-1 and V-CMP-3: signed, and equal operands are not less. -/
theorem test_lt_signed :
    ∃ t, step (running [1107, -5, 3, 5, 99]) = .next t ∧ t.mem.read 5 = 1 ∧ t.ip = 4 :=
  ⟨_, rfl, by decide, by decide⟩
theorem test_lt_equal :
    ∃ t, step (running [1107, 4, 4, 5, 99, 7]) = .next t ∧ t.mem.read 5 = 0 := ⟨_, rfl, by decide⟩

/-- V-CMP-4 and V-CMP-6: equality is exact. -/
theorem test_eq_equal :
    ∃ t, step (running [1108, 0, 0, 5, 99]) = .next t ∧ t.mem.read 5 = 1 ∧ t.ip = 4 :=
  ⟨_, rfl, by decide, by decide⟩
theorem test_eq_no_truncation :
    ∃ t, step (running [1108, 18446744073709551617, 1, 5, 99, 7]) = .next t ∧ t.mem.read 5 = 0 :=
  ⟨_, rfl, by decide⟩

/-- V-ARB-3, its second step: `209,-4` adds `Mem[6] = 99` to RB = 10. -/
theorem test_arb_relative :
    ∃ t, step { running [109, 10, 209, -4, 204, 0, 99] with ip := 2, rb := 10 } = .next t ∧
      t.rb = 109 ∧ t.ip = 4 := ⟨_, rfl, by decide, by decide⟩

/-- V-ARB-4, its second step: `21101,5,6,7` with RB = 100 writes `Mem[107] = 11`. -/
theorem test_relative_write :
    ∃ t, step { running [109, 100, 21101, 5, 6, 7, 4, 107, 99] with ip := 2, rb := 100 } = .next t ∧
      t.mem.read 107 = 11 := ⟨_, rfl, by decide⟩

/-- V-H-1: `99`. -/
theorem test_halt :
    ∃ t, step (running [99]) = .next t ∧ t.status = .halted ∧ t.ip = 0 :=
  ⟨_, rfl, by decide, by decide⟩

/-- V-D-3, V-AR-12, V-IO-4: the fault record of a step. -/
theorem test_fault_illegal_opcode :
    ∃ t, step (running [1077, 0, 0, 0]) = .next t ∧ t.faultCause = .illegalOpcode ∧
      t.faultInfo = 1077 := ⟨_, rfl, by decide, by decide⟩
theorem test_fault_immediate_target :
    ∃ t, step (running [11101, 1, 1, 5, 99]) = .next t ∧ t.faultCause = .invalidParameterMode ∧
      t.faultInfo = 11101 := ⟨_, rfl, by decide, by decide⟩
theorem test_fault_in_keeps_the_queue :
    ∃ t, step (fed [203, -1, 99] [5]) = .next t ∧ t.faultCause = .invalidAddress ∧
      t.faultInfo = -1 ∧ t.inQ = [5] := ⟨_, rfl, by decide, by decide, by decide⟩

/-- The encodings of STATUS and FAULT_CAUSE (10_state.md R28, R29; 60_exceptions.md R150). -/
theorem test_register_codes :
    [Status.ready, .running, .awaitingInput, .halted, .faulted].map Status.code = [0, 1, 2, 3, 4] ∧
      [FaultCause.none, .invalidAddress, .invalidParameterMode, .illegalOpcode, .valueOverflow,
        .resourceExhausted].map FaultCause.code = [0, 1, 2, 3, 4, 5] := by decide

/-- The empty program (V-D-4), from reset: LOAD, RUN, and the fault RUN returns. -/
theorem test_session_empty_program :
    (session 1 [.load [], .run] State.reset).map Prod.fst =
      some [.ok, .run (.faulted .illegalOpcode 0 0 .core)] := rfl

/-- V-IO-2 whole: RUN suspends, FEED 42, RUN again halts, TAKE gives 42. -/
theorem test_session_suspend_and_resume :
    (session 3 [.load [3, 0, 4, 0, 99], .run, .feed 42, .run, .take true] State.reset).map Prod.fst =
      some [.ok, .run .awaitingInput, .ok, .run .halted, .outputs [42]] := rfl

/-! ### Witnesses: a concrete state and operands for the hypotheses of each statement -/

/-- ADDR_LIMIT is 16: addresses on both sides of each boundary; cell 3 is not listed. -/
theorem witness_MemReadChecksThenReadsTheCell :
    (finite [7]).cfg.addrLimit = some 16 ∧ (-1 : Int) < 0 ∧ (0 : Int) ≤ 16 ∧ 16 ≤ (16 : Int).toNat ∧
      (15 : Int).toNat < 16 ∧ (0 : Int).toNat < 16 ∧ (running [7]).cfg.addrLimit = none ∧
      ∀ c ∈ (finite [7]).mem, c.1 ≠ (3 : Int).toNat := by decide

theorem witness_MemWriteChangesExactlyOneCell :
    (finite [7]).mem.wf ∧ (-1 : Int) < 0 ∧ (finite [7]).cfg.inRange 16 = false ∧
      (finite [7]).cfg.inRange 15 = true ∧ writeAddress (finite [7]) 3 (pos 15) = .ok 15 := by decide

/-- V-AR-7: an ADD writes the next instruction's opcode cell. -/
theorem witness_FetchSeesEveryEarlierWrite_step :
    (running [1101, 0, 99, 4, 0]).mem.wf ∧ (running [1101, 0, 99, 4, 0]).status = .running ∧
      fetchInstr (running [1101, 0, 99, 4, 0]) = .ok (.add (imm 0) (imm 99) (pos 4)) ∧
      storeAddress (.add (imm 0) (imm 99) (pos 4)) (running [1101, 0, 99, 4, 0]) = some 4 ∧
      storedValue (.add (imm 0) (imm 99) (pos 4)) (running [1101, 0, 99, 4, 0]) = some 99 ∧
      ∃ t, step (running [1101, 0, 99, 4, 0]) = .next t ∧ t.status = .running ∧ t.ip = 4 :=
  ⟨by decide, rfl, rfl, rfl, rfl, _, rfl, rfl, rfl⟩

theorem witness_FetchSeesEveryEarlierWrite_poke :
    State.reset.mem.wf ∧
      ∃ t, command 0 (.poke 0 99) State.reset = some (.ok, t) ∧ t.ip = 0 := ⟨by decide, _, rfl, rfl⟩

theorem witness_MemoriesThatReadAlikeAreEqual :
    Memory.wf [(3, 5)] ∧ Memory.wf (Memory.write [] 3 5) ∧
      ∀ a, Memory.read [(3, 5)] a = Memory.read (Memory.write [] 3 5) a :=
  ⟨by decide, by decide, fun _ => rfl⟩

/-- The boundary addresses of an 8-bit core: -128 and 127, and a negative one. -/
theorem witness_ReadOperandFollowsItsMode :
    (-1 : Int) < 0 ∧ (finite []).cfg.fits (127 + (finite []).rb) = true ∧
      (finite []).cfg.fits (-128 + (finite []).rb) = true ∧ -128 + (finite []).rb < 0 := by decide

/-- Position and relative targets at -1, 15 and 16. -/
theorem witness_WriteTargetFollowsItsMode :
    (finite []).cfg.fits (-11 + ({ finite [] with rb := 10 } : State).rb) = true ∧
      -11 + ({ finite [] with rb := 10 } : State).rb = -1 ∧
      5 + ({ finite [] with rb := 10 } : State).rb = 15 ∧ (finite []).cfg.inRange 15 = true ∧
      6 + ({ finite [] with rb := 10 } : State).rb = 16 ∧ (finite []).cfg.inRange 16 = false := by decide

theorem witness_RelativeAddressThatDoesNotFitOverflows :
    (finite []).cfg.cellBits = some 8 ∧ (2 : Int) ^ (8 - 1) ≤ 128 + (finite []).rb ∧
      -129 + (finite []).rb < -(2 : Int) ^ (8 - 1) := by decide

theorem witness_DecoderAcceptsExactlyTheLegalCells :
    decodeOpcode 22208 = .ok ⟨.eq, [.relative, .relative, .relative]⟩ ∧ 22208 ∈ legalCells .eq := by decide

theorem witness_IllegalCellsRaiseExactlyOneFault :
    decodeOpcode 10 = .error (.illegalOpcode 10) ∧
      decodeOpcode 300 = .error (.illegalOpcode 300) ∧
      decodeOpcode 199 = .error (.invalidParameterMode 199) := by decide

theorem witness_AcceptedCellHasItsDecimalFields :
    decodeOpcode 1002 = .ok ⟨.mul, [.position, .immediate, .position]⟩ ∧ 99 < 10 ^ 2 := by decide

theorem witness_DecodingAnEncodedInstructionGivesItBack :
    (Instr.add (imm (-7)) (rel 2) (rel 3)).wf = true := by decide

theorem witness_EncodingADecodedInstructionGivesItsCellsBack :
    decode [1105, -1, 7, 99] = .ok (.jt (imm (-1)) (imm 7), [99]) := by decide

theorem witness_StepRunsTheInstructionAtIp :
    (running [1002, 4, 3, 4, 33]).status = .running ∧ 0 ≤ (running [1002, 4, 3, 4, 33]).ip ∧
      (Instr.mul (pos 4) (imm 3) (pos 4)).wf = true ∧
      ∀ k (h : k < (encode (.mul (pos 4) (imm 3) (pos 4))).length),
        (running [1002, 4, 3, 4, 33]).cfg.inRange ((running [1002, 4, 3, 4, 33]).ip.toNat + k) = true ∧
          (running [1002, 4, 3, 4, 33]).mem.read ((running [1002, 4, 3, 4, 33]).ip.toNat + k) =
            (encode (.mul (pos 4) (imm 3) (pos 4)))[k] := by decide

/-- IP at -1 and at ADDR_LIMIT; an illegal cell; an ADD at 13 whose third parameter cell is at 16. -/
theorem witness_FetchFaultsAreTaken :
    (finite []).status = .running ∧ (-1 : Int) < 0 ∧ (finite []).cfg.inRange 16 = false ∧
      memRead (finite [77]) 0 = .ok 77 ∧ 77 % 100 ∉ legalBaseOpcodes ∧
      memRead (finite [103]) 0 = .ok 103 ∧ 103 % 100 ∈ legalBaseOpcodes ∧
      memRead { finite (List.replicate 13 0 ++ [1]) with ip := 13 } 13 = .ok 1 ∧
      decodeOpcode 1 = .ok ⟨.add, [.position, .position, .position]⟩ ∧ 2 < BaseOp.add.paramCount ∧
      (∀ j, j < 2 → (finite []).cfg.inRange ((13 : Int) + 1 + (j : Nat)).toNat = true) ∧
      (finite []).cfg.inRange ((13 : Int) + 1 + (2 : Nat)).toNat = false := by decide

theorem witness_FetchFaultsAreTaken_mode : ∀ op, ∀ n ∈ legalCells op, (103 : Int) ≠ (n : Int) := by
  intro op
  cases op <;> decide

theorem witness_IdleCoreRetainsItsState :
    State.reset.status ≠ .running ∧
      command 0 (.feed 5) State.reset = some (.ok, { State.reset with inQ := [5] }) ∧
      command 0 (.peek 0) State.reset = some (.value 0, State.reset) ∧
      ∃ t, step (running [99]) = .next t ∧ t.status = .halted :=
  ⟨by decide, rfl, rfl, _, rfl, rfl⟩

theorem witness_EveryStepAnswersANextState :
    State.reset.status ≠ .running ∧ step State.reset = .next State.reset ∧
      State.reset.status = .ready := ⟨by decide, rfl, rfl⟩

/-- The three ways out of RUNNING. -/
theorem witness_StatusLeavesRunningOnlyAsTabled :
    (running [99]).status = .running ∧
      (∃ t, step (running [99]) = .next t ∧ t.status = .halted) ∧
      (∃ t, step (running [3, 0]) = .next t ∧ t.status = .awaitingInput) ∧
      (∃ t, step (running [77]) = .next t ∧ t.status = .faulted) ∧
      ∃ t, step (running [1101, 1, 1, 5]) = .next t ∧ t.status = .running :=
  ⟨rfl, ⟨_, rfl, rfl⟩, ⟨_, rfl, rfl⟩, ⟨_, rfl, rfl⟩, _, rfl, rfl⟩

/-- A finite core at the boundaries: the sum is 127, the largest IP + 4 is 127. -/
theorem witness_AddWritesTheExactSum :
    (finite []).mem.wf ∧ readOperand (finite []) (imm 100) = .ok 100 ∧
      readOperand (finite []) (imm 27) = .ok 27 ∧
      writeAddress (finite []) (opcodeCell .add [imm 100, imm 27, rel 15]) (rel 15) = .ok 15 ∧
      (finite []).cfg.fits (100 + 27) = true ∧ (finite []).cfg.fits (123 + 4) = true := by decide

theorem witness_MulWritesTheExactProduct :
    (finite [4]).mem.wf ∧ readOperand (finite [4]) (pos 0) = .ok 4 ∧
      readOperand (finite [4]) (imm (-32)) = .ok (-32) ∧
      writeAddress (finite [4]) (opcodeCell .mul [pos 0, imm (-32), pos 0]) (pos 0) = .ok 0 ∧
      (finite [4]).cfg.fits (4 * -32) = true ∧ (finite [4]).cfg.fits ((finite [4]).ip + 4) = true := by
  decide

/-- Both outcomes, and the boundary x = y. -/
theorem witness_LessThanWritesOneOrZero :
    (finite [4]).mem.wf ∧ readOperand (finite [4]) (pos 0) = .ok 4 ∧
      readOperand (finite [4]) (imm 5) = .ok 5 ∧ readOperand (finite [4]) (imm 4) = .ok 4 ∧
      writeAddress (finite [4]) (opcodeCell .lt [pos 0, imm 5, rel 1]) (rel 1) = .ok 1 ∧
      (finite [4]).cfg.fits ((finite [4]).ip + 4) = true := by decide

theorem witness_EqualsWritesOneOrZero :
    (finite [4]).mem.wf ∧ readOperand (finite [4]) (pos 0) = .ok 4 ∧
      readOperand (finite [4]) (imm 5) = .ok 5 ∧ readOperand (finite [4]) (imm 4) = .ok 4 ∧
      writeAddress (finite [4]) (opcodeCell .eq [pos 0, imm 5, rel 1]) (rel 1) = .ok 1 ∧
      (finite [4]).cfg.fits ((finite [4]).ip + 4) = true := by decide

theorem witness_InputStoresTheOldestValue :
    (fed [3, 0] [7, 8]).mem.wf ∧
      writeAddress (fed [3, 0] [7, 8]) (opcodeCell .inp [pos 0]) (pos 0) = .ok 0 ∧
      (fed [3, 0] [7, 8]).inQ = 7 :: [8] ∧
      (fed [3, 0] [7, 8]).cfg.fits ((fed [3, 0] [7, 8]).ip + 2) = true := by decide

theorem witness_InputWithAnEmptyQueueSuspends :
    writeAddress (finite [3]) (opcodeCell .inp [rel 15]) (rel 15) = .ok 15 ∧ (finite [3]).inQ = [] ∧
      (finite [3]).cfg.fits ((finite [3]).ip + 2) = true := by decide

/-- A log of capacity 1 with nothing untaken in it: one value taken, room for one. -/
theorem witness_OutputAppendsItsOperand :
    readOperand { finite [4] with outLog := [9], outCur := 1 } (pos 0) = .ok 4 ∧
      (∀ depth, (finite [4]).cfg.outDepth = some depth → [9].length - 1 < depth) ∧
      (finite [4]).cfg.fits ((finite [4]).ip + 2) = true :=
  ⟨by decide, by intro d h; cases h; decide, by decide⟩

theorem witness_JumpIfTrueSetsIp :
    readOperand (finite [0]) (imm (-1)) = .ok (-1) ∧ readOperand (finite [0]) (pos 0) = .ok 0 ∧
      readOperand (finite [0]) (imm (-5)) = .ok (-5) ∧ (-1 : Int) ≠ 0 ∧
      (finite [0]).cfg.fits ((finite [0]).ip + 3) = true := by decide

theorem witness_JumpIfFalseSetsIp :
    readOperand (finite [0]) (imm (-1)) = .ok (-1) ∧ readOperand (finite [0]) (pos 0) = .ok 0 ∧
      readOperand (finite [0]) (imm (-5)) = .ok (-5) ∧ (-1 : Int) ≠ 0 ∧
      (finite [0]).cfg.fits ((finite [0]).ip + 3) = true := by decide

/-- The new RB at the boundaries 127 and -128. -/
theorem witness_AdjustAddsToRelativeBase :
    readOperand (finite []) (imm 127) = .ok 127 ∧ readOperand (finite []) (imm (-128)) = .ok (-128) ∧
      (finite []).cfg.fits ((finite []).rb + 127) = true ∧
      (finite []).cfg.fits ((finite []).rb + -128) = true ∧
      (finite []).cfg.fits ((finite []).ip + 2) = true := by decide

/-- A completion, a suspension and a fault. -/
theorem witness_EveryInstructionKeepsItsFrame :
    (∃ t, exec (.add (imm 1) (imm 2) (pos 3)) (running []) = .next t ∧ t.status = .running) ∧
      (∃ t, exec (.inp (pos 3)) (running []) = .next t ∧ t.status = .awaitingInput) ∧
      ∃ t, exec (.out (pos (-1))) (running []) = .next t ∧ t.status = .faulted :=
  ⟨⟨_, rfl, rfl⟩, ⟨_, rfl, rfl⟩, _, rfl, rfl⟩

/-- V-ARB-4 and V-ARB-5: RB = 100, offset 7, address 107. -/
theorem witness_RelativeAndPositionModesNameOneCell :
    ({ running [] with rb := 100 } : State).mem.wf ∧
      readOperand { running [] with rb := 100 } (imm 5) = .ok 5 ∧
      readOperand { running [] with rb := 100 } (imm 6) = .ok 6 ∧
      writeAddress { running [] with rb := 100 } 21101 (rel 7) = .ok 107 ∧
      writeAddress { running [] with rb := 100 } 1101 (pos 107) = .ok 107 ∧
      (∃ t, exec (.add (imm 5) (imm 6) (rel 7)) { running [] with rb := 100 } = .next t) ∧
      ∃ t, exec (.add (imm 5) (imm 6) (pos 107)) { running [] with rb := 100 } = .next t :=
  ⟨by decide, rfl, rfl, rfl, rfl, ⟨_, rfl⟩, _, rfl⟩

theorem witness_FaultEntryRecordsTheFirstFault :
    (running []).status ≠ .faulted ∧ ({ running [] with status := .faulted } : State).status = .faulted := by
  decide

theorem witness_StepFaultsArePreciseAndAtomic :
    (fed [203, -1, 99] [5]).status = .running ∧
      ∃ t, step (fed [203, -1, 99] [5]) = .next t ∧ t.status = .faulted := ⟨rfl, _, rfl, rfl⟩

/-- V-J-6 in place, and an IN whose target fails on an empty queue. -/
theorem witness_FirstUnresolvedParameterGivesTheFault :
    firstResolutionError (.jt (imm 0) (pos (-1))) (running []) = some ⟨.invalidAddress, -1⟩ ∧
      firstResolutionError (.inp (rel (-1))) (running []) = some ⟨.invalidAddress, -1⟩ ∧
      firstResolutionError (.add (pos (-2)) (pos (-1)) (pos 0)) (running []) =
        some ⟨.invalidAddress, -2⟩ := by decide

/-- Sums, products, RB and IP one above the largest 8-bit value. -/
theorem witness_FiniteRealisationFaultsInsteadOfWrapping_results :
    firstResolutionError (.add (imm 127) (imm 1) (pos 0)) (finite []) = none ∧
      readOperand (finite []) (imm 127) = .ok 127 ∧ (finite []).cfg.fits (127 + 1) = false ∧
      firstResolutionError (.mul (imm 64) (imm 2) (pos 0)) (finite []) = none ∧
      (finite []).cfg.fits (64 * 2) = false ∧
      firstResolutionError (.arb (imm 1)) { finite [] with rb := 127 } = none ∧
      (finite []).cfg.fits (127 + 1) = false := by decide

theorem witness_FiniteRealisationFaultsInsteadOfWrapping_ip :
    firstResolutionError (.lt (imm 1) (imm 1) (pos 0)) { finite [] with ip := 124 } = none ∧
      (finite []).cfg.fits (124 + 4) = false ∧
      firstResolutionError (.jt (imm 0) (imm 1)) { finite [] with ip := 125 } = none ∧
      firstResolutionError (.jf (imm 1) (imm 1)) { finite [] with ip := 125 } = none ∧
      (finite []).cfg.fits (125 + 3) = false ∧
      firstResolutionError (.inp (pos 0)) { finite [] with ip := 126 } = none ∧
      firstResolutionError (.out (imm 1)) { finite [] with ip := 126 } = none ∧
      (finite []).cfg.fits (126 + 2) = false := by decide

theorem witness_FiniteRealisationFaultsInsteadOfWrapping_log :
    firstResolutionError (.out (imm 1)) { finite [] with outLog := [9] } = none ∧
      ∃ depth, (finite []).cfg.outDepth = some depth ∧ depth ≤ [9].length - 0 := ⟨by decide, 1, rfl, by decide⟩

/-- The three codes. -/
theorem witness_ReferenceHardwareRaisesOnlyThreeFaults :
    (running [77]).cfg = Config.reference ∧ (running [77]).status = .running ∧
      (∃ t, step (running [4, -1]) = .next t ∧ t.status = .faulted ∧ t.faultCause.code = 1) ∧
      (∃ t, step (running [103]) = .next t ∧ t.status = .faulted ∧ t.faultCause.code = 2) ∧
      ∃ t, step (running [77]) = .next t ∧ t.status = .faulted ∧ t.faultCause.code = 3 :=
  ⟨rfl, rfl, ⟨_, rfl, rfl, rfl⟩, ⟨_, rfl, rfl, rfl⟩, _, rfl, rfl, rfl⟩

/-- A FAULTED core that has lost a peek at -1. -/
def faultedCore : State := enterFault ⟨.invalidAddress, -1⟩ .host State.reset

theorem witness_FaultedIsLeftOnlyByLoad :
    faultedCore.status = .faulted ∧
      command 0 .run faultedCore = some (.run (.faulted .invalidAddress 0 (-1) .host), faultedCore) ∧
      command 0 (.peek (-2)) faultedCore = some (.fault .invalidAddress, faultedCore) ∧
      command 0 (.feed 1) faultedCore = some (.ok, { faultedCore with inQ := [1] }) := ⟨rfl, rfl, rfl, rfl⟩

theorem witness_OnlyAdjustAndLoadChangeRelativeBase :
    (∃ t, step (running [109, 5]) = .next t ∧ t.rb ≠ (running [109, 5]).rb) ∧
      ∃ r t, command 0 (.load []) { State.reset with rb := 5 } = some (r, t) ∧ t.rb ≠ 5 :=
  ⟨⟨_, rfl, by decide⟩, _, _, rfl, by decide⟩

/-- V-J-5, and the same by JF. -/
theorem witness_OnlyJumpsMakeIpNegative :
    (∃ t, step (running [1105, 1, -5]) = .next t ∧ 0 ≤ (running [1105, 1, -5]).ip ∧ t.ip < 0) ∧
      ∃ t, step (running [1106, 0, -1]) = .next t ∧ 0 ≤ (running [1106, 0, -1]).ip ∧ t.ip < 0 :=
  ⟨⟨_, rfl, by decide, by decide⟩, _, rfl, by decide, by decide⟩

theorem witness_OnlyWriteTargetsChangeMemory :
    (∃ t, step (running [1101, 1, 1, 9]) = .next t ∧ t.mem.read 9 ≠ (running [1101, 1, 1, 9]).mem.read 9) ∧
      ∃ r t, command 0 (.poke 9 4) State.reset = some (r, t) ∧ t.mem.read 9 ≠ State.reset.mem.read 9 :=
  ⟨⟨_, rfl, by decide⟩, _, _, rfl, by decide⟩

/-- V-IO-1: an IN and an OUT complete, and the host feeds and takes. -/
theorem witness_ChannelLosesAndReordersNothing :
    (∃ t, step (fed [3, 0, 4, 0, 99] [7]) = .next t ∧ t.status = .running ∧
      fetchInstr (fed [3, 0, 4, 0, 99] [7]) = .ok (.inp (pos 0))) ∧
    (∃ t, step { running [3, 0, 4, 0, 99] with ip := 2 } = .next t ∧ t.status = .running ∧
      fetchInstr { running [3, 0, 4, 0, 99] with ip := 2 } = .ok (.out (pos 0))) ∧
    (∃ t, Host.Core.run Sys2Proof.core 2 (fed [3, 0, 4, 0, 99] [7]) = .next t ∧ t.outLog = [7]) ∧
    (∃ t, step (running [3, 0]) = .next t ∧ t.status = .awaitingInput) ∧
    (∃ t, command 0 (.feed 7) State.reset = some (.ok, t)) ∧
    ∃ vs t, command 0 (.take true) { State.reset with outLog := [7, 8], outCur := 1 } =
      some (.outputs vs, t) ∧ 1 ≤ [7, 8].length :=
  ⟨⟨_, rfl, rfl, rfl⟩, ⟨_, rfl, rfl, rfl⟩, ⟨_, rfl, rfl⟩, ⟨_, rfl, rfl⟩, ⟨_, rfl⟩, _, _, rfl, by decide⟩

theorem witness_OutputLogNeverAffectsExecution :
    (running [104, 7, 99]).cfg.outDepth = none ∧
      ∃ t, Host.Core.run Sys2Proof.core 2 (running [104, 7, 99]) = .next t ∧ t.outLog = [7] :=
  ⟨rfl, _, rfl, rfl⟩

theorem witness_InputsAtTheTailDoNotChangeTheRunSoFar :
    ∃ t, Host.Core.run Sys2Proof.core 2 (fed [3, 0, 104, 1, 99] [7]) = .next t ∧
      t.status ≠ .awaitingInput := ⟨_, rfl, by decide⟩

/-- V-IO-2: the suspended core, then FEED, or a POKE of its own cells. -/
theorem witness_SuspendedInputIsReattempted :
    (running [3, 0, 99]).status = .running ∧
      ∃ t, step (running [3, 0, 99]) = .next t ∧ t.status = .awaitingInput ∧
        (∃ u, hostFeed 5 t = (.ok, u)) ∧
        ∃ u, hostPoke 0 99 t = (.ok, u) ∧ fetchInstr u = .ok .halt :=
  ⟨rfl, _, rfl, rfl, ⟨_, rfl⟩, _, rfl, rfl⟩

/-- A core of the finite realisation with a program, a fed value and an untaken output. -/
def busy : State := { finite [3, 15, 4, 15, 99] with rb := -128, inQ := [127], outLog := [1, 2], outCur := 1 }

theorem witness_EveryStepKeepsTheInvariant :
    busy.Inv ∧ ∃ t, step busy = .next t ∧ t.status = .running := by
  refine ⟨?_, _, rfl, rfl⟩
  constructor <;> decide

theorem witness_EveryCommandKeepsTheInvariant :
    State.Inv { busy with status := .ready } ∧
      ∃ r t, command 3 .run { busy with status := .ready } = some (r, t) ∧ t.status = .faulted := by
  refine ⟨?_, _, _, rfl, rfl⟩
  constructor <;> decide

/-- A program of exactly ADDR_LIMIT cells is accepted, one more cell or the value 128 is refused. -/
theorem witness_LoadSetsEveryPieceOfState :
    ({ finite [] with status := .halted } : State).status ≠ .running ∧
      (∀ v ∈ List.replicate 16 (127 : Int), small.fits v = true) ∧
      (∀ limit, small.addrLimit = some limit → (List.replicate 16 (127 : Int)).length ≤ limit) ∧
      (∃ v ∈ [(128 : Int)], small.fits v = false) ∧
      ∃ limit, small.addrLimit = some limit ∧ limit < (List.replicate 17 (127 : Int)).length :=
  ⟨by decide, by decide, by intro l h; cases h; decide, ⟨128, by decide, by decide⟩, 16, rfl, by decide⟩

theorem witness_FeedAppendsAtTheTail :
    ({ finite [] with status := .halted } : State).status ≠ .running ∧ small.fits 127 = true ∧
      (∀ depth, small.inDepth = some depth → ([] : List Int).length < depth) ∧ small.fits 128 = false ∧
      ∃ depth, small.inDepth = some depth ∧ depth ≤ [(7 : Int)].length :=
  ⟨by decide, by decide, by intro d h; cases h; decide, by decide, 1, rfl, by decide⟩

theorem witness_TakeReturnsTheUntakenOutputs :
    ({ State.reset with outLog := [1, 2], outCur := 1 } : State).status ≠ .running := by decide

theorem witness_PeekAndPokeReachOneCell :
    ({ finite [7] with status := .ready } : State).status ≠ .running ∧
      ({ finite [7] with status := .ready } : State).mem.wf ∧ (-1 : Int) < 0 ∧
      small.inRange 16 = false ∧ small.inRange 15 = true ∧ small.fits 127 = true ∧
      small.fits 128 = false := by decide

/-- The converse clause at its boundary, as many steps as fuel, for each way of stopping. -/
theorem witness_RunReturnsWhereTheCoreStopped_stops :
    (∃ t, Host.Core.run Sys2Proof.core 1 (running [99]) = .next t ∧ t.status = .halted) ∧
      (∃ t, Host.Core.run Sys2Proof.core 1 (running [3, 0]) = .next t ∧ t.status = .awaitingInput) ∧
      ∃ t, Host.Core.run Sys2Proof.core 1 (running [77]) = .next t ∧ t.status = .faulted :=
  ⟨⟨_, rfl, rfl⟩, ⟨_, rfl, rfl⟩, _, rfl, rfl⟩

/-- Every STATUS, and a RUN that returns. -/
theorem witness_RunReturnsWhereTheCoreStopped :
    (running []).status = .running ∧ ({ running [] with status := .halted } : State).status = .halted ∧
      faultedCore.status = .faulted ∧
      (∃ r t, command 1 .run { running [99] with status := .ready } = some (r, t)) ∧
      ∃ r t, command 1 .run { running [3, 0] with status := .awaitingInput } = some (r, t) :=
  ⟨rfl, rfl, rfl, ⟨_, _, rfl⟩, _, _, rfl⟩

/-- `1105,1,0` jumps to itself (60_exceptions.md R171; V-J-8). -/
theorem loop_runs_for_ever (n : Nat) (t : State)
    (h : Host.Core.run Sys2Proof.core n (running [1105, 1, 0]) = .next t) : t.status = .running := by
  induction n with
  | zero => cases h; rfl
  | succ n ih => exact ih h

theorem witness_RunWithoutAStopHasNoResult :
    ({ running [1105, 1, 0] with status := .ready } : State).status ≠ .halted ∧
      ({ running [1105, 1, 0] with status := .ready } : State).status ≠ .faulted ∧
      (∀ n t, Host.Core.run Sys2Proof.core n (running [1105, 1, 0]) = .next t → t.status = .running) ∧
      (∃ t, Host.Core.run Sys2Proof.core 3 (running [1105, 1, 0]) = .next t ∧ t.status = .running) ∧
      ∃ rt, session 1 [.load [99], .run] State.reset = some rt :=
  ⟨by decide, by decide, loop_runs_for_ever, ⟨_, rfl, rfl⟩, _, rfl⟩

theorem witness_SessionDependsOnProgramAndCommandsAlone :
    ({ busy with status := .halted } : State).status ≠ .running ∧
      ({ faultedCore with cfg := small } : State).status ≠ .running ∧
      ({ busy with status := .halted } : State).cfg = ({ faultedCore with cfg := small } : State).cfg ∧
      (∀ v ∈ [(99 : Int)], small.fits v = true) ∧
      ∀ limit, small.addrLimit = some limit → [(99 : Int)].length ≤ limit :=
  ⟨by decide, by decide, rfl, by decide, by intro l h; cases h; decide⟩

theorem witness_ConfigurationIsConstant :
    (∃ t, step (finite [99]) = .next t) ∧ ∃ r t, command 0 (.load [1]) { busy with status := .ready } = some (r, t) :=
  ⟨⟨_, rfl⟩, _, _, rfl⟩

/-- CELL_BITS = 8: the range is -128 to 127. -/
theorem witness_FitsIsTheSignedRange :
    small.cellBits = some 8 ∧ Config.reference.cellBits = none ∧ small.fits (-128) = true ∧
      small.fits (-129) = false ∧ small.fits 127 = true ∧ small.fits 128 = false := by decide

/-- Reset memory is in canonical form, and a run from reset needs a program (log 3). -/
theorem test_reset : State.reset.mem.wf ∧ step State.reset = .next State.reset := ⟨by decide, rfl⟩

end Sys2Proof.Tests
end

