-- ==== Sys2Proof/Proofs/OperandModes.lean ====
section
/-! Operand resolution mode by mode (30_encoding.md R75): one equation per mode. -/

namespace Sys2Proof.Machine

theorem readOperand_position (s : State) (p : Int) :
    readOperand s ⟨.position, p⟩ = memRead s p := rfl

theorem readOperand_immediate (s : State) (p : Int) : readOperand s ⟨.immediate, p⟩ = .ok p := rfl

theorem readOperand_relative {s : State} {p : Int} (hfits : s.cfg.fits (p + s.rb) = true) :
    readOperand s ⟨.relative, p⟩ = memRead s (p + s.rb) := by
  have haddr : relativeAddress s p = .ok (p + s.rb) := checkFits_ok.2 ⟨rfl, hfits⟩
  simp [readOperand, haddr]

/-- The first address check of MemRead (20_memory.md R51). -/
theorem memRead_negative (s : State) {a : Int} (ha : a < 0) :
    memRead s a = .error ⟨.invalidAddress, a⟩ :=
  memRead_error.2 (checkAddress_error.2 (.inl ⟨ha, rfl⟩))

/-- Settles O5: each mode's equation, and in the two addressing modes the first check of MemRead. -/
theorem readOperandFollowsItsMode : Obligations.ReadOperandFollowsItsMode := by
  intro s p
  refine ⟨readOperand_position s p, fun hp => ?_, readOperand_immediate s p, fun hfits => ?_⟩
  · exact (readOperand_position s p).trans (memRead_negative s hp)
  · have hrel := readOperand_relative hfits
    exact ⟨hrel, fun hneg => hrel.trans (memRead_negative s hneg)⟩

end Sys2Proof.Machine
end

