-- ==== Sys2Proof/Proofs/DecimalFields.lean ====
section
/-! The decimal fields of an opcode cell the decoder accepts (30_encoding.md R71). -/

namespace Sys2Proof

/-- The decoder's loop reads one mode for each role. -/
theorem decodeModes_length {c : Nat} (roles : List Role) {k : Nat} {modes : List Mode}
    (h : decodeModes c k roles = some modes) : modes.length = roles.length := by
  induction roles generalizing k modes with
  | nil => rw [decodeModes_nil.1 h]; rfl
  | cons role roles ih =>
    obtain ⟨m, ms, rfl, -, -, htail⟩ := decodeModes_cons.1 h
    simp [ih htail]

/-- Started at digit `k`, the decoder's loop reads mode `j` from digit `k + j`. -/
theorem decodeModes_digit {c : Nat} (roles : List Role) {k : Nat} {modes : List Mode}
    (h : decodeModes c k roles = some modes) (j : Nat) (hj : j < modes.length) :
    digit c (k + j) = modes[j].digit := by
  induction roles generalizing k modes j with
  | nil => simp [decodeModes_nil.1 h] at hj
  | cons role roles ih =>
    obtain ⟨m, ms, rfl, hdigit, -, htail⟩ := decodeModes_cons.1 h
    cases j with
    | zero => exact hdigit
    | succ j =>
      have hnext := ih htail j (Nat.lt_of_succ_lt_succ hj)
      rwa [Nat.add_right_comm] at hnext

/-- A digit that is not written is 0 (30_encoding.md R71). -/
theorem digit_eq_zero_of_lt {n k : Nat} (h : n < 10 ^ k) : digit n k = 0 := by
  rw [digit, Nat.div_eq_of_lt h]

/-- Settles O10: the decoder's checks give OP and HIGH, and its loop over the roles gives the mode digits. -/
theorem acceptedCellHasItsDecimalFields : Obligations.AcceptedCellHasItsDecimalFields := by
  refine ⟨fun n f h => ?_, fun n k => ⟨rfl, digit_eq_zero_of_lt⟩⟩
  obtain ⟨-, hop, hmodes, hhigh⟩ := decodeOpcode_ok.1 h
  have hcount := (decodeModes_length f.op.roles hmodes).trans (roles_length f.op)
  refine ⟨hop, hcount, fun k hk => ?_, hhigh⟩
  have hdigit := decodeModes_digit f.op.roles hmodes k hk
  rwa [Nat.add_comm 2 k] at hdigit

end Sys2Proof
end

