-- ==== Sys2Proof/Proofs/HostCommands.lean ====
section
/-! Equations of the host's commands on a core that is not RUNNING (60_exceptions.md R160, R161): which
one answers what, and when RUN steps at all. -/

namespace Sys2Proof.Machine

/-- A core that is not RUNNING is idle: a step changes nothing (60_exceptions.md R174). -/
theorem step_idle {s : State} (hidle : s.status ≠ .running) : step s = .next s :=
  step_cases.2 (.inl ⟨hidle, rfl⟩)

/-- A RUNNING core whose fetch succeeds executes what it fetched (30_encoding.md R82). -/
theorem step_eq_exec {s : State} {i : Instr} (hrun : s.status = .running)
    (hfetch : fetchInstr s = .ok i) : step s = exec i s := by
  simp [step, hrun, hfetch]

/-- RUN's answer in the state where the core stopped: its result and that state. -/
def runAnswer (t : State) : Option (Response × State) :=
  (runResult t).map fun r => (.run r, t)

/-- RUN of a core that waits sets RUNNING and steps (60_exceptions.md R161). -/
theorem command_run_of_waiting {s : State} (fuel : Nat)
    (hwait : s.status = .ready ∨ s.status = .awaitingInput) :
    command fuel .run s = (runLoop fuel (s.setStatus .running)).bind runAnswer := by
  rcases hwait with h | h <;> · simp only [command, hostRun, h]; rfl

/-- RUN of a HALTED or FAULTED core answers at once (60_exceptions.md R159, R161). -/
theorem command_run_of_terminal {s : State} (fuel : Nat)
    (hstop : s.status = .halted ∨ s.status = .faulted) : command fuel .run s = runAnswer s := by
  rcases hstop with h | h <;> · simp only [command, hostRun, h]; rfl

/-- The host has no move while the core is RUNNING (60_exceptions.md R160). -/
theorem command_of_running {s : State} (fuel : Nat) (c : HostCommand) (hrun : s.status = .running) :
    command fuel c s = none := if_pos hrun

/-- Fuel bounds RUN alone. -/
theorem command_fuel_irrelevant {c : HostCommand} (fuel fuel' : Nat) (s : State) (hc : c ≠ .run) :
    command fuel c s = command fuel' c s := by
  cases c with
  | run => exact absurd rfl hc
  | _ => rfl

/-- A LOAD whose program fits and is within ADDR_LIMIT is taken (70_reset_and_hazards.md R180). -/
theorem command_load_accepted {s : State} {p : List Int} (fuel : Nat) (hidle : s.status ≠ .running)
    (hfits : ∀ v ∈ p, s.cfg.fits v = true)
    (hlimit : ∀ limit, s.cfg.addrLimit = some limit → p.length ≤ limit) :
    command fuel (.load p) s = some (.ok, State.loaded s.cfg p) := by
  have hholds : s.cfg.holdsProgram p.length = true := by
    unfold Config.holdsProgram
    split
    · rfl
    · next limit h => exact decide_eq_true (hlimit limit h)
  simp [command, hidle, hostLoad, List.all_eq_true.2 hfits, hholds]

/-- Settles O54: both LOADs are taken, and each leaves the state that the realisation and the program fix. -/
theorem sessionDependsOnProgramAndCommandsAlone :
    Obligations.SessionDependsOnProgramAndCommandsAlone := by
  intro s s' p cs fuel hidle hidle' hcfg hfits hlimit
  have hload := command_load_accepted fuel hidle hfits hlimit
  have hload' := command_load_accepted fuel hidle' (hcfg ▸ hfits) (hcfg ▸ hlimit)
  simp only [session, hload, hload', hcfg]

end Sys2Proof.Machine
end

