-- ==== Sys2Proof/Proofs/IdleCore.lean ====
section
/-! What the host's commands leave alone on an idle core (60_exceptions.md R174). -/

namespace Sys2Proof.Machine

/-- A FEED is refused with no change or appends at the tail of the queue (60_exceptions.md R162). -/
theorem hostFeed_cases {v : Int} {s t : State} {r : Response} (h : hostFeed v s = (r, t)) :
    (r = .refused ∧ t = s) ∨ (r = .ok ∧ t = s.setInQ (s.inQ ++ [v])) := by
  unfold hostFeed at h
  split at h
  · obtain ⟨rfl, rfl⟩ := Prod.mk.inj h
    exact .inl ⟨rfl, rfl⟩
  · obtain ⟨rfl, rfl⟩ := Prod.mk.inj h
    exact .inr ⟨rfl, rfl⟩

/-- A FEED changes the input queue alone, taken or refused. -/
theorem command_feed_changes_inQ_alone {fuel : Nat} {v : Int} {s t : State} {r : Response}
    (hidle : s.status ≠ .running) (h : command fuel (.feed v) s = some (r, t)) :
    t = { s with inQ := t.inQ } := by
  have hcommand : command fuel (.feed v) s = some (hostFeed v s) := if_neg hidle
  have hfeed : hostFeed v s = (r, t) := Option.some.inj (hcommand.symm.trans h)
  rcases hostFeed_cases hfeed with ⟨-, rfl⟩ | ⟨-, rfl⟩
  · rfl
  · rfl

/-- A command that neither loads nor wakes the core executes nothing: IP, RB and the log stay, and
STATUS stays or becomes FAULTED by the host's own invalid PEEK or POKE. -/
theorem command_that_does_not_wake {fuel : Nat} {c : HostCommand} {s t : State} {r : Response}
    (h : command fuel c s = some (r, t)) (hload : ∀ p, c ≠ .load p)
    (hwake : c ≠ .run ∨ s.status = .halted ∨ s.status = .faulted) :
    t.ip = s.ip ∧ t.rb = s.rb ∧ t.outLog = s.outLog ∧
      (t.status = s.status ∨ t.status = .faulted) := by
  rcases (command_cases h).2 with ⟨p, hc, -⟩ | ⟨_, -, rfl | ⟨-, -, rfl⟩⟩ | ⟨hc, rfl | ⟨hwait, -⟩⟩ |
    ⟨_, -, rfl | rfl⟩ | ⟨-, rfl⟩ | ⟨-, e, -, rfl⟩ | ⟨_, _, -, rfl | ⟨_, -, -, rfl⟩⟩
  any_goals exact ⟨rfl, rfl, rfl, .inl rfl⟩
  · exact absurd hc (hload p)
  · exact absurd hwake (by rcases hwait with hs | hs <;> simp [hc, hs])
  · exact ⟨enterFault_ip s e _, enterFault_rb s e _, enterFault_outLog s e _,
      .inr (enterFault_status s e _)⟩

/-- Settles O16: the idle step, the commands that do not wake, FEED, and RUN of a core that has stopped
for good, each from its own lemma. -/
theorem idleCoreRetainsItsState : Obligations.IdleCoreRetainsItsState := by
  intro s hidle
  refine ⟨step_idle hidle, fun fuel c r t h hload hwake => ?_,
    fun fuel v r t h => command_feed_changes_inQ_alone hidle h, fun fuel hstop => ?_⟩
  · obtain ⟨hip, hrb, hlog, hstatus⟩ := command_that_does_not_wake h hload hwake
    refine ⟨hip, hrb, hlog, ?_, hstatus⟩
    rcases hstatus with hs | hs
    · rwa [hs]
    · simp [hs]
  · rw [command_run_of_terminal fuel hstop]
    rcases hstop with hs | hs <;> simp [runAnswer, runResult, hs]

end Sys2Proof.Machine
end

