-- ==== Sys2Proof/Proofs/RunFuel.lean ====
section
/-! RUN's loop against the number of steps the core makes: fuel that runs out is no result, and a
result does not depend on the fuel left over (60_exceptions.md R171). -/

namespace Sys2Proof.Machine

/-- A run of any number of steps answers a state. -/
theorem run_total (n : Nat) (s : State) : ∃ t, Host.Core.run Sys2Proof.core n s = .next t := by
  induction n generalizing s with
  | zero => exact ⟨s, run_zero.2 rfl⟩
  | succ n ih =>
    obtain ⟨u, hstep⟩ := step_total s
    obtain ⟨t, hrun⟩ := ih u
    exact ⟨t, run_succ.2 ⟨u, hstep, hrun⟩⟩

/-- No number of steps wakes an idle core. -/
theorem run_idle {n : Nat} {s t : State} (hidle : s.status ≠ .running)
    (h : Host.Core.run Sys2Proof.core n s = .next t) : t = s := by
  induction n with
  | zero => exact run_zero.1 h
  | succ n ih =>
    obtain ⟨u, hstep, hrun⟩ := run_succ.1 h
    rw [step_idle hidle] at hstep
    obtain rfl : s = u := by simpa using hstep
    exact ih hrun

/-- The loop has no result when the core is still RUNNING after as many steps as it has fuel. -/
theorem runLoop_out_of_fuel {fuel : Nat} {s t : State}
    (h : Host.Core.run Sys2Proof.core fuel s = .next t) (ht : t.status = .running) :
    runLoop fuel s = none := by
  induction fuel generalizing s with
  | zero =>
    obtain rfl := run_zero.1 h
    exact if_pos ht
  | succ fuel ih =>
    have hs : s.status = .running := by
      by_contra hidle
      exact hidle (run_idle hidle h ▸ ht)
    obtain ⟨u, hstep, hrun⟩ := run_succ.1 h
    rw [runLoop_succ hs hstep, ih hrun]

/-- Where the loop has stopped, more fuel changes nothing. -/
theorem runLoop_more_fuel {fuel : Nat} {s t : State} (h : runLoop fuel s = some t) (more : Nat) :
    runLoop (fuel + more) s = some t := by
  induction fuel generalizing s with
  | zero =>
    have hidle : s.status ≠ .running := fun hs => by simp [runLoop, hs] at h
    rw [runLoop_stopped hidle] at h ⊢
    exact h
  | succ fuel ih =>
    by_cases hs : s.status = .running
    · obtain ⟨u, hstep⟩ := step_total s
      rw [runLoop_succ hs hstep] at h
      rw [Nat.add_right_comm, runLoop_succ hs hstep, ih h]
    · rw [runLoop_stopped hs] at h ⊢
      exact h

/-- RUN has no result at a fuel after which the core it started is still RUNNING. -/
theorem command_run_out_of_fuel {s t : State} {fuel : Nat} (hhalted : s.status ≠ .halted)
    (hfaulted : s.status ≠ .faulted)
    (h : Host.Core.run Sys2Proof.core fuel (s.setStatus .running) = .next t)
    (ht : t.status = .running) : command fuel .run s = none := by
  have hloop := runLoop_out_of_fuel h ht
  cases hs : s.status with
  | ready => rw [command_run_of_waiting fuel (.inl hs), hloop]; rfl
  | awaitingInput => rw [command_run_of_waiting fuel (.inr hs), hloop]; rfl
  | running => exact command_of_running fuel .run hs
  | halted => exact absurd hs hhalted
  | faulted => exact absurd hs hfaulted

/-- A command that answers gives the same answer at every larger fuel. -/
theorem command_more_fuel {fuel : Nat} {c : HostCommand} {s : State} {answer : Response × State}
    (h : command fuel c s = some answer) (more : Nat) : command (fuel + more) c s = some answer := by
  by_cases hc : c = .run
  · subst hc
    cases hs : s.status with
    | ready | awaitingInput =>
      rw [command_run_of_waiting _ (by simp [hs])] at h ⊢
      obtain ⟨t, hloop, hanswer⟩ := Option.bind_eq_some_iff.1 h
      rw [runLoop_more_fuel hloop more, Option.bind_some, hanswer]
    | running => simp [command_of_running fuel .run hs] at h
    | halted | faulted =>
      rw [command_run_of_terminal _ (by simp [hs])] at h ⊢
      exact h
  · rw [command_fuel_irrelevant (fuel + more) fuel s hc, h]

/-- A session that has a result has a first answer and a result from there on. -/
theorem session_cons {fuel : Nat} {c : HostCommand} {cs : List HostCommand} {s : State}
    {result : List Response × State} :
    session fuel (c :: cs) s = some result ↔
      ∃ r t rs u, command fuel c s = some (r, t) ∧ session fuel cs t = some (rs, u) ∧
        result = (r :: rs, u) := by
  simp only [session]
  rcases command fuel c s with _ | ⟨r, t⟩
  · simp
  · rcases hrest : session fuel cs t with _ | ⟨rs, u⟩
    · simp [hrest]
    · simp [hrest, eq_comm (b := result)]

/-- A session that has a result has the same one at every larger fuel. -/
theorem session_more_fuel {fuel : Nat} {cs : List HostCommand} {s : State}
    {result : List Response × State} (h : session fuel cs s = some result) (more : Nat) :
    session (fuel + more) cs s = some result := by
  induction cs generalizing s result with
  | nil => exact h
  | cons c cs ih =>
    obtain ⟨r, t, rs, u, hcommand, hrest, rfl⟩ := session_cons.1 h
    exact session_cons.2 ⟨r, t, rs, u, command_more_fuel hcommand more, ih hrest, rfl⟩

/-- Settles O53: a core that never stops is RUNNING after as many steps as any fuel. -/
theorem runWithoutAStopHasNoResult : Obligations.RunWithoutAStopHasNoResult := by
  refine ⟨fun s hhalted hfaulted hnever fuel => ?_,
    fun s t fuel hhalted hfaulted hrun ht => command_run_out_of_fuel hhalted hfaulted hrun ht,
    fun s cs fuel more result h => session_more_fuel h more⟩
  obtain ⟨t, hrun⟩ := run_total fuel (s.setStatus .running)
  exact command_run_out_of_fuel hhalted hfaulted hrun (hnever fuel t hrun)

end Sys2Proof.Machine
end

