-- ==== Sys2Proof/Proofs/SuspendedInput.lean ====
section
/-! The suspended IN (60_exceptions.md R167): when a step suspends, and what the next RUN does. -/

namespace Sys2Proof.Machine

/-! A fetch looks at neither the queue nor STATUS. -/

theorem fetchInstr_setInQ (s : State) (q : List Int) : fetchInstr (s.setInQ q) = fetchInstr s :=
  fetchInstr_congr (setInQ_cfg s q) (setInQ_mem s q) (setInQ_ip s q)

theorem fetchInstr_setStatus (s : State) (v : Status) : fetchInstr (s.setStatus v) = fetchInstr s :=
  fetchInstr_congr (setStatus_cfg s v) (setStatus_mem s v) (setStatus_ip s v)

/-- IN alone suspends: every other effect that succeeds leaves STATUS, or makes it HALTED. -/
theorem effectOf_suspends {i : Instr} {s t : State} (hrun : s.status = .running)
    (h : effectOf i s = .ok t) (ht : t.status = .awaitingInput) :
    ∃ dst d, i = .inp dst ∧ writeAddress s (opcodeCell .inp [dst]) dst = .ok d ∧
      s.cfg.fits (s.ip + 2) = true ∧ s.inQ = [] ∧ t = s.suspend := by
  cases i with
  | add a b dst | mul a b dst | lt a b dst | eq a b dst =>
    simp only [effectOf_add, effectOf_mul, effectOf_lt, effectOf_eq] at h
    obtain ⟨x, y, d, r, -, -, -, -, -, rfl⟩ := storeResult_ok.1 h
    simp [hrun] at ht
  | inp dst =>
    obtain ⟨d, haddr, hfits, ⟨hempty, rfl⟩ | ⟨v, rest, -, rfl⟩⟩ := inputEffect_ok.1 h
    · exact ⟨dst, d, rfl, haddr, hfits, hempty, rfl⟩
    · simp [hrun] at ht
  | out a =>
    obtain ⟨x, -, -, -, rfl⟩ := outputEffect_ok.1 h
    simp [hrun] at ht
  | jt a target | jf a target =>
    obtain ⟨x, y, -, -, ⟨-, rfl⟩ | ⟨-, -, rfl⟩⟩ := conditionalJump_ok.1 h <;> simp [hrun] at ht
  | arb a =>
    obtain ⟨x, -, -, -, rfl⟩ := adjustEffect_ok.1 h
    simp [hrun] at ht
  | halt =>
    obtain rfl : s.setStatus .halted = t := Except.ok.inj h
    simp at ht

/-- A step suspends only at an IN that passes every check and finds the queue empty, and it then
changes STATUS alone (41_io.md R110). -/
theorem step_suspends {s t : State} (hrun : s.status = .running) (h : step s = .next t)
    (ht : t.status = .awaitingInput) :
    ∃ dst d, fetchInstr s = .ok (.inp dst) ∧
      writeAddress s (opcodeCell .inp [dst]) dst = .ok d ∧
      s.cfg.fits (s.ip + 2) = true ∧ s.inQ = [] ∧ t = s.suspend := by
  rcases step_cases.1 h with ⟨hidle, -⟩ | ⟨-, e, -, rfl⟩ | ⟨-, i, hfetch, hexec⟩
  · exact absurd hrun hidle
  · simp at ht
  · rcases exec_cases.1 hexec with heffect | ⟨e, -, rfl⟩
    · obtain ⟨dst, d, rfl, hrest⟩ := effectOf_suspends hrun heffect ht
      exact ⟨dst, d, hfetch, hrest⟩
    · simp at ht

/-- Waking a suspended core gives back the state it suspended in. -/
theorem suspend_setStatus_running {s : State} (hrun : s.status = .running) :
    s.suspend.setStatus .running = s := by
  cases s
  cases hrun
  rfl

/-- The cell an IN stores to is its resolved write target. -/
theorem storeAddress_inp {s : State} {dst : Param} {d : Nat}
    (h : writeAddress s (opcodeCell .inp [dst]) dst = .ok d) :
    storeAddress (.inp dst) s = some d := by
  simp [storeAddress, writeTarget, Instr.op, Instr.params, h]

/-- RUN of a core that a step has suspended makes that step again and stops (60_exceptions.md R167). -/
theorem command_run_suspends_again {s : State} (fuel : Nat) (hrun : s.status = .running)
    (h : step s = .next s.suspend) :
    command (fuel + 1) .run s.suspend = some (.run .awaitingInput, s.suspend) := by
  rw [command_run_of_waiting _ (.inr (suspend_status s)), suspend_setStatus_running hrun,
    runLoop_succ hrun h, runLoop_stopped (by simp)]
  rfl

/-- With one value in the queue, the IN stores it, empties the queue and goes on (41_io.md R110). -/
theorem step_inp_with_one_value {s : State} {dst : Param} {d : Nat} (v : Int)
    (hrun : s.status = .running) (hfetch : fetchInstr s = .ok (.inp dst))
    (haddr : writeAddress s (opcodeCell .inp [dst]) dst = .ok d)
    (hfits : s.cfg.fits (s.ip + 2) = true) :
    step (s.setInQ [v]) =
      .next { s with inQ := [], mem := s.mem.write d v, ip := s.ip + 2 } := by
  have hfetch' : fetchInstr (s.setInQ [v]) = .ok (.inp dst) := (fetchInstr_setInQ s [v]).trans hfetch
  have heffect : effectOf (.inp dst) (s.setInQ [v]) =
      .ok ((((s.setInQ [v]).setInQ []).store d v).setIp (s.ip + 2)) :=
    inputEffect_ok.2 ⟨d, haddr, hfits, .inr ⟨v, [], rfl, rfl⟩⟩
  exact step_completes hrun hfetch' heffect

/-- Settles O44: the step that suspends is an IN, so with no value it is repeated, with one it completes,
and what a POKE left at IP is fetched anew. -/
theorem suspendedInputIsReattempted : Obligations.SuspendedInputIsReattempted := by
  intro s t fuel hrun hstep ht
  obtain ⟨dst, d, hfetch, haddr, hfits, hempty, rfl⟩ := step_suspends hrun hstep ht
  refine ⟨rfl, command_run_suspends_again fuel hrun hstep, fun v u hfeed => ?_,
    fun a v u i _ hfetchNew => ?_⟩
  · obtain ⟨⟨⟩, -⟩ | ⟨-, rfl⟩ := hostFeed_cases hfeed
    have hqueue : s.suspend.inQ ++ [v] = [v] := by simp [hempty]
    have hcomplete := step_inp_with_one_value v hrun hfetch haddr hfits
    have hwake : (s.suspend.setInQ [v]).setStatus .running = s.setInQ [v] :=
      congrArg (State.setInQ · [v]) (suspend_setStatus_running hrun)
    rw [hqueue, hwake]
    exact ⟨rfl, dst, d, hfetch, storeAddress_inp haddr, hcomplete, runLoop_succ hrun hcomplete⟩
  · exact step_eq_exec rfl ((fetchInstr_setStatus u .running).trans hfetchNew)

end Sys2Proof.Machine
end

