-- ==== Sys2Proof/Proofs/Codec.lean ====
section
/-! The decoder and the encoder are inverse to each other (30_encoding.md R71, R78, R79, R84): an opcode
cell is its opcode plus its mode digits, each at its own power of ten. -/

namespace Sys2Proof

/-- Each mode is one its role admits (30_encoding.md R78). -/
def ModesAdmitted : List Role → List Mode → Prop := List.Forall₂ fun role m => role.admits m = true

theorem Mode.digit_lt_ten (m : Mode) : m.digit < 10 := by cases m <;> decide

theorem BaseOp.code_lt_hundred (op : BaseOp) : op.code < 10 ^ 2 := by cases op <;> decide

/-! ### The mode digits -/

theorem dvd_encodeModes (k : Nat) (ps : List Param) : 10 ^ k ∣ encodeModes k ps := by
  induction ps generalizing k with
  | nil => exact Nat.dvd_zero _
  | cons p ps ih =>
    exact Nat.dvd_add (Nat.dvd_mul_left _ _) ((pow_dvd_pow 10 k.le_succ).trans (ih (k + 1)))

/-- The digit of the first parameter, whatever stands below and above it. -/
theorem digit_encodeModes_cons {k low : Nat} (hlow : low < 10 ^ k) (p : Param) (ps : List Param) :
    digit (low + encodeModes k (p :: ps)) k = p.mode.digit := by
  obtain ⟨q, hq⟩ := dvd_encodeModes (k + 1) ps
  have hcell : low + encodeModes k (p :: ps) = low + 10 ^ k * (p.mode.digit + 10 * q) := by
    rw [encodeModes, hq]; ring
  rw [digit, hcell, Nat.add_mul_div_left _ _ (by positivity), Nat.div_eq_of_lt hlow, Nat.zero_add,
    Nat.add_mul_mod_self_left, Nat.mod_eq_of_lt p.mode.digit_lt_ten]

/-- What stands below digit `k + 1` is what stands below digit `k` and that digit. -/
theorem low_add_digit_lt {k low : Nat} (hlow : low < 10 ^ k) (m : Mode) :
    low + m.digit * 10 ^ k < 10 ^ (k + 1) := by
  have hdigit : m.digit * 10 ^ k ≤ 9 * 10 ^ k :=
    Nat.mul_le_mul_right _ (Nat.le_of_lt_succ m.digit_lt_ten)
  rw [pow_succ]
  omega

/-- The decoder's loop reads the modes that were encoded (30_encoding.md R79). -/
theorem decodeModes_encodeModes {k low : Nat} {roles : List Role} {ps : List Param}
    (hlow : low < 10 ^ k) (hadmits : ModesAdmitted roles (ps.map Param.mode)) :
    decodeModes (low + encodeModes k ps) k roles = some (ps.map Param.mode) := by
  induction ps generalizing k low roles with
  | nil =>
    obtain rfl := List.forall₂_nil_right_iff.1 hadmits
    exact decodeModes_nil.2 rfl
  | cons p ps ih =>
    obtain ⟨role, roles', hrole, hroles, rfl⟩ := List.forall₂_cons_right_iff.1 hadmits
    refine decodeModes_cons.2 ⟨p.mode, _, rfl, digit_encodeModes_cons hlow p ps, hrole, ?_⟩
    rw [encodeModes, ← Nat.add_assoc]
    exact ih (low_add_digit_lt hlow p.mode) hroles

/-- No digit stands above the last parameter's. -/
theorem low_add_encodeModes_lt {k low : Nat} (hlow : low < 10 ^ k) (ps : List Param) :
    low + encodeModes k ps < 10 ^ (k + ps.length) := by
  induction ps generalizing k low with
  | nil => exact hlow
  | cons p ps ih =>
    have hlength : k + (p :: ps).length = k + 1 + ps.length := by rw [List.length_cons]; omega
    rw [encodeModes, ← Nat.add_assoc, hlength]
    exact ih (low_add_digit_lt hlow p.mode)

/-- A number with no digit above the last parameter's is what stands below the first one's and the modes
the decoder's loop reads. -/
theorem eq_low_add_encodeModes {c k : Nat} {roles : List Role} {ps : List Param}
    (h : decodeModes c k roles = some (ps.map Param.mode)) (hhigh : c / 10 ^ (k + ps.length) = 0) :
    c = c % 10 ^ k + encodeModes k ps := by
  induction ps generalizing k roles with
  | nil =>
    have hlow : c < 10 ^ k := by simpa using hhigh
    exact (Nat.mod_eq_of_lt hlow).symm
  | cons p ps ih =>
    cases roles with
    | nil => simp [decodeModes] at h
    | cons role roles =>
      obtain ⟨m, ms, hms, hdigit, -, hrest⟩ := decodeModes_cons.1 h
      obtain ⟨rfl, rfl⟩ := List.cons.inj hms
      rw [List.length_cons, ← Nat.succ_add_eq_add_succ] at hhigh
      have hnext := ih hrest hhigh
      rw [Nat.mod_pow_succ, ← digit, hdigit] at hnext
      rw [encodeModes, ← Nat.add_assoc, Nat.mul_comm]
      exact hnext

theorem decodeModes_admitted {c k : Nat} {roles : List Role} {modes : List Mode}
    (h : decodeModes c k roles = some modes) : ModesAdmitted roles modes := by
  induction roles generalizing k modes with
  | nil => rw [decodeModes_nil.1 h]; exact .nil
  | cons role roles ih =>
    obtain ⟨m, ms, rfl, -, hadmit, hrest⟩ := decodeModes_cons.1 h
    exact .cons hadmit (ih hrest)

/-! ### Instructions and their fields -/

/-- An instruction is well-formed exactly when each parameter's mode is one its role admits. -/
theorem Instr.wf_iff {i : Instr} :
    i.wf = true ↔ ModesAdmitted i.op.roles (i.params.map Param.mode) := by
  cases i <;> simp [ModesAdmitted, Instr.wf, Instr.op, Instr.params, BaseOp.roles, Role.admits]

theorem Instr.params_length (i : Instr) : i.params.length = i.op.paramCount := by cases i <;> rfl

/-- An instruction is assembled from its base opcode, its modes and its raw parameters. -/
theorem assemble_fields (i : Instr) :
    OpcodeFields.assemble ⟨i.op, i.params.map Param.mode⟩ (i.params.map Param.raw) = i := by
  cases i <;> rfl

theorem assemble_op (f : OpcodeFields) (raws : List Int) : (f.assemble raws).op = f.op := by
  obtain ⟨op, modes⟩ := f
  cases op <;> rfl

/-- The parameters of an assembled instruction, by their position. -/
theorem assemble_params (f : OpcodeFields) (raws : List Int) :
    (f.assemble raws).params = (List.range f.op.paramCount).map (paramAt f.modes raws) := by
  obtain ⟨op, modes⟩ := f
  cases op <;> rfl

/-- A list of known length is what reading each of its positions gives. -/
theorem map_getD_range {α : Type} {n : Nat} {xs : List α} (hlength : xs.length = n) (default : α) :
    (List.range n).map (fun k => xs.getD k default) = xs := by
  subst hlength
  refine List.ext_getElem (by simp) fun k _ hk => ?_
  simp [List.getElem?_eq_getElem hk]

theorem assemble_modes {f : OpcodeFields} (raws : List Int) (h : f.modes.length = f.op.paramCount) :
    (f.assemble raws).params.map Param.mode = f.modes := by
  rw [assemble_params, List.map_map]
  exact map_getD_range h .position

theorem assemble_raws {f : OpcodeFields} {raws : List Int} (h : raws.length = f.op.paramCount) :
    (f.assemble raws).params.map Param.raw = raws := by
  rw [assemble_params, List.map_map]
  exact map_getD_range h 0

/-! ### The opcode cell -/

/-- The decoder reads a well-formed instruction's fields from its opcode cell (30_encoding.md R78). -/
theorem decodeOpcode_opcodeCell {i : Instr} (hwf : i.wf = true) :
    decodeOpcode (opcodeCell i.op i.params) = .ok ⟨i.op, i.params.map Param.mode⟩ := by
  have hlow := i.op.code_lt_hundred
  have hhigh := low_add_encodeModes_lt hlow i.params
  rw [Instr.params_length, Nat.add_comm 2] at hhigh
  refine decodeOpcode_ok.2 ⟨Int.natCast_nonneg _, ?_,
    decodeModes_encodeModes hlow (Instr.wf_iff.1 hwf), Nat.div_eq_of_lt hhigh⟩
  obtain ⟨q, hq⟩ := dvd_encodeModes 2 i.params
  show (i.op.code + encodeModes 2 i.params) % 10 ^ 2 = i.op.code
  rw [hq, Nat.add_mul_mod_self_left, Nat.mod_eq_of_lt hlow]

theorem modes_length_of_decodeOpcode {c : Int} {f : OpcodeFields} (h : decodeOpcode c = .ok f) :
    f.modes.length = f.op.paramCount := by
  obtain ⟨-, -, hmodes, -⟩ := decodeOpcode_ok.1 h
  exact (decodeModes_length f.op.roles hmodes).trans (roles_length f.op)

/-- What an accepted cell and its parameter cells are assembled to is well-formed. -/
theorem assemble_wf {c : Int} {f : OpcodeFields} (raws : List Int) (h : decodeOpcode c = .ok f) :
    (f.assemble raws).wf = true := by
  obtain ⟨-, -, hmodes, -⟩ := decodeOpcode_ok.1 h
  rw [Instr.wf_iff, assemble_op, assemble_modes raws (modes_length_of_decodeOpcode h)]
  exact decodeModes_admitted hmodes

/-- The opcode cell of the assembled instruction is the cell that was accepted. -/
theorem opcodeCell_assemble {c : Int} {f : OpcodeFields} (raws : List Int)
    (h : decodeOpcode c = .ok f) :
    opcodeCell (f.assemble raws).op (f.assemble raws).params = c := by
  obtain ⟨hsign, hcode, hmodes, hhigh⟩ := decodeOpcode_ok.1 h
  have hread := assemble_modes raws (modes_length_of_decodeOpcode h)
  have hcount : (f.assemble raws).params.length = f.op.paramCount := by
    rw [Instr.params_length, assemble_op]
  rw [← hread] at hmodes
  rw [Nat.add_comm, ← hcount] at hhigh
  have hcell := eq_low_add_encodeModes hmodes hhigh
  rw [show c.toNat % 10 ^ 2 = f.op.code from hcode] at hcell
  rw [assemble_op, opcodeCell, ← hcell, Int.toNat_of_nonneg hsign]

/-! ### Lists of cells -/

/-- The decoder on a list of cells accepts exactly an accepted opcode cell with its parameter cells. -/
theorem decode_ok {cells rest : List Int} {i : Instr} :
    decode cells = .ok (i, rest) ↔
      ∃ c raws f, cells = c :: (raws ++ rest) ∧ decodeOpcode c = .ok f ∧
        raws.length = f.op.paramCount ∧ i = f.assemble raws := by
  constructor
  · intro h
    cases cells with
    | nil => simp [decode] at h
    | cons c cells =>
      rcases hop : decodeOpcode c with e | f
      · simp [decode, hop] at h
      · by_cases hshort : cells.length < f.op.paramCount
        · simp [decode, hop, hshort] at h
        · simp only [decode, hop, hshort, if_false, Except.ok.injEq, Prod.mk.injEq] at h
          obtain ⟨rfl, rfl⟩ := h
          exact ⟨c, cells.take f.op.paramCount, f, by rw [List.take_append_drop], hop,
            List.length_take_of_le (Nat.le_of_not_lt hshort), rfl⟩
  · rintro ⟨c, raws, f, rfl, hop, hlength, rfl⟩
    simp [decode, hop, ← hlength]

/-- Settles O11: the opcode cell gives the fields back, and the parameter cells are taken as they are. -/
theorem decodingAnEncodedInstructionGivesItBack :
    Obligations.DecodingAnEncodedInstructionGivesItBack := by
  intro i rest hwf
  refine decode_ok.2 ⟨_, _, _, rfl, decodeOpcode_opcodeCell hwf, ?_, (assemble_fields i).symm⟩
  rw [List.length_map, Instr.params_length]

/-- Settles O12: the decoder's checks leave no digit of the opcode cell unread. -/
theorem encodingADecodedInstructionGivesItsCellsBack :
    Obligations.EncodingADecodedInstructionGivesItsCellsBack := by
  intro cells rest i h
  obtain ⟨c, raws, f, rfl, hop, hlength, rfl⟩ := decode_ok.1 h
  refine ⟨assemble_wf raws hop, ?_⟩
  rw [encode, opcodeCell_assemble raws hop, assemble_raws hlength, List.cons_append]

end Sys2Proof
end

