-- ==== Sys2Proof/Proofs/LegalCells.lean ====
section
/-! The decoder's verdict on every integer against the tables of 30_encoding.md R78 and R79. -/

namespace Sys2Proof

theorem mem_legalBaseOpcodes {n : Nat} : n ∈ legalBaseOpcodes ↔ ∃ op : BaseOp, n = op.code := by
  constructor
  · intro h
    simp only [legalBaseOpcodes, List.mem_cons, List.not_mem_nil, or_false] at h
    rcases h with rfl | rfl | rfl | rfl | rfl | rfl | rfl | rfl | rfl | rfl
    exacts [⟨.add, rfl⟩, ⟨.mul, rfl⟩, ⟨.inp, rfl⟩, ⟨.out, rfl⟩, ⟨.jt, rfl⟩, ⟨.jf, rfl⟩, ⟨.lt, rfl⟩,
      ⟨.eq, rfl⟩, ⟨.arb, rfl⟩, ⟨.halt, rfl⟩]
  · rintro ⟨op, rfl⟩
    cases op <;> decide

theorem ofCode_none {n : Nat} : BaseOp.ofCode n = none ↔ n ∉ legalBaseOpcodes := by
  rw [mem_legalBaseOpcodes, Option.eq_none_iff_forall_ne_some, not_exists]
  exact forall_congr' fun op => not_congr ofCode_some

/-- The three verdicts of the decoder, by its checks in their order (30_encoding.md R79). -/
theorem decodeOpcode_verdict (c : Int) :
    ((c < 0 ∨ c.toNat % 100 ∉ legalBaseOpcodes) ∧ decodeOpcode c = .error (.illegalOpcode c)) ∨
    (¬ (c < 0 ∨ c.toNat % 100 ∉ legalBaseOpcodes) ∧
      (decodeOpcode c = .error (.invalidParameterMode c) ∨ ∃ f, decodeOpcode c = .ok f)) := by
  rw [← ofCode_none]
  unfold decodeOpcode
  by_cases hneg : c < 0
  · simp [hneg]
  · rcases BaseOp.ofCode (c.toNat % 100) with _ | op
    · simp [hneg]
    · rcases hmodes : decodeModes c.toNat 2 op.roles with _ | modes
      · simp [hneg, hmodes]
      · by_cases hhigh : c.toNat / 10 ^ (op.paramCount + 2) = 0 <;>
          simp only [hneg, hmodes, hhigh] <;> simp

/-- The lists of admitted modes, one for each role. -/
def modeChoices : List Role → List (List Mode)
  | [] => [[]]
  | role :: roles =>
    ([.position, .immediate, .relative].filter role.admits).flatMap fun m =>
      (modeChoices roles).map (m :: ·)

theorem mem_modeChoices {roles : List Role} {modes : List Mode} (h : ModesAdmitted roles modes) :
    modes ∈ modeChoices roles := by
  induction h with
  | nil => exact List.mem_singleton_self []
  | @cons role m roles modes hadmit _ ih =>
    have hm : m ∈ [Mode.position, .immediate, .relative] := by cases m <;> decide
    exact List.mem_flatMap.2 ⟨m, List.mem_filter.2 ⟨hm, hadmit⟩, List.mem_map_of_mem ih⟩

/-- Every choice of admitted modes stands in its row of the table (30_encoding.md R78). -/
theorem modeChoices_in_table (op : BaseOp) :
    ∀ modes ∈ modeChoices op.roles,
      op.code + encodeModes 2 (modes.map (Param.mk · 0)) ∈ legalCells op := by
  cases op <;> decide

/-- The mode digits depend on the modes alone. -/
theorem encodeModes_of_modes (k : Nat) (ps : List Param) :
    encodeModes k ((ps.map Param.mode).map (Param.mk · 0)) = encodeModes k ps := by
  induction ps generalizing k with
  | nil => rfl
  | cons p ps ih => simp only [List.map_cons, encodeModes, ih]

/-- The opcode cell of a well-formed instruction stands in the table. -/
theorem opcodeCell_mem_legalCells {i : Instr} (hwf : i.wf = true) :
    i.op.code + encodeModes 2 i.params ∈ legalCells i.op := by
  have hmem := modeChoices_in_table i.op _ (mem_modeChoices (Instr.wf_iff.1 hwf))
  rwa [encodeModes_of_modes] at hmem

/-- Every value of the table decodes as its row's instruction. -/
theorem decodeOpcode_of_mem_legalCells {op : BaseOp} :
    ∀ n ∈ legalCells op, ((decodeOpcode n).toOption.map OpcodeFields.op) = some op := by
  cases op <;> decide

/-- Settles O8: an accepted cell is its fields' encoding, and each of the 99 values is decoded. -/
theorem decoderAcceptsExactlyTheLegalCells : Obligations.DecoderAcceptsExactlyTheLegalCells := by
  intro c op
  constructor
  · rintro ⟨modes, h⟩
    have hcell := opcodeCell_assemble [] h
    have hmem := opcodeCell_mem_legalCells (assemble_wf [] h)
    rw [assemble_op] at hmem hcell
    exact ⟨_, hmem, hcell.symm⟩
  · rintro ⟨n, hn, rfl⟩
    have hop := decodeOpcode_of_mem_legalCells n hn
    rcases hdec : decodeOpcode n with e | ⟨op', modes⟩
    · simp [hdec, Except.toOption] at hop
    · obtain rfl : op' = op := by simpa [hdec, Except.toOption] using hop
      exact ⟨modes, rfl⟩

/-- A cell the decoder accepts is one of the table's, and the other way round. -/
theorem decodeOpcode_accepts_iff {c : Int} :
    (∃ f, decodeOpcode c = .ok f) ↔ ∃ op, ∃ n ∈ legalCells op, c = (n : Int) := by
  simp only [← decoderAcceptsExactlyTheLegalCells c]
  exact ⟨fun ⟨f, h⟩ => ⟨f.op, f.modes, h⟩, fun ⟨op, modes, h⟩ => ⟨⟨op, modes⟩, h⟩⟩

theorem decodeOpcode_illegalOpcode_iff {c : Int} :
    decodeOpcode c = .error (.illegalOpcode c) ↔ c < 0 ∨ c.toNat % 100 ∉ legalBaseOpcodes := by
  rcases decodeOpcode_verdict c with ⟨hc, h⟩ | ⟨hc, h | ⟨f, h⟩⟩ <;> simp [h, hc]

theorem decodeOpcode_invalidParameterMode_iff {c : Int} :
    decodeOpcode c = .error (.invalidParameterMode c) ↔
      0 ≤ c ∧ c.toNat % 100 ∈ legalBaseOpcodes ∧ ∀ op, ∀ n ∈ legalCells op, c ≠ (n : Int) := by
  have htable := decodeOpcode_accepts_iff (c := c)
  have hbase : 0 ≤ c ∧ c.toNat % 100 ∈ legalBaseOpcodes ↔
      ¬ (c < 0 ∨ c.toNat % 100 ∉ legalBaseOpcodes) := by simp
  have hrow : (∀ op, ∀ n ∈ legalCells op, c ≠ (n : Int)) ↔ ¬ ∃ f, decodeOpcode c = .ok f := by
    simp [htable]
  rw [← and_assoc, hbase, hrow]
  rcases decodeOpcode_verdict c with ⟨hc, h⟩ | ⟨hc, h | ⟨f, h⟩⟩ <;> simp only [h, hc] <;> simp

/-- Settles O9: the decoder's three verdicts exclude each other. -/
theorem illegalCellsRaiseExactlyOneFault : Obligations.IllegalCellsRaiseExactlyOneFault := by
  refine fun c => ⟨decodeOpcode_illegalOpcode_iff, decodeOpcode_invalidParameterMode_iff, fun e he => ?_⟩
  rcases decodeOpcode_verdict c with ⟨-, h⟩ | ⟨-, h | ⟨f, h⟩⟩ <;> rw [h] at he
  · exact .inl (Except.error.inj he).symm
  · exact .inr (Except.error.inj he).symm
  · cases he

/-- Settles O13: the ten samples are closed, and the decoder evaluates on each. -/
theorem sampleCellsDecodeToTheirInstructions : Obligations.SampleCellsDecodeToTheirInstructions := by
  unfold Obligations.SampleCellsDecodeToTheirInstructions
  decide

end Sys2Proof
end

