-- ==== Sys2Proof/Proofs/MemoryAccess.lean ====
section
/-! The memory array as the total function it reads as, and the checks of every access: addresses
against ADDR_LIMIT, values against CELL_BITS (20_memory.md R51, R52; 30_encoding.md R76). -/

namespace Sys2Proof

/-! ### The realisation's parameters -/

/-- Settles O56: `fits` says its range. -/
theorem fitsIsTheSignedRange : Obligations.FitsIsTheSignedRange := by
  intro cfg v
  refine ⟨fun hnone => ?_, fun w hw => ?_⟩
  · simp [Config.fits, hnone]
  · simp [Config.fits, hw]

theorem Config.inRange_iff {cfg : Config} {a : Nat} :
    cfg.inRange a = true ↔ ∀ limit, cfg.addrLimit = some limit → a < limit := by
  unfold Config.inRange
  cases cfg.addrLimit <;> simp

theorem Config.full_iff {depth : Option Nat} {length : Nat} :
    Config.full depth length = true ↔ ∃ d, depth = some d ∧ d ≤ length := by
  unfold Config.full
  cases depth <;> simp

theorem Config.not_full_iff {depth : Option Nat} {length : Nat} :
    Config.full depth length = false ↔ ∀ d, depth = some d → length < d := by
  unfold Config.full
  cases depth <;> simp

theorem Config.holdsProgram_iff {cfg : Config} {length : Nat} :
    cfg.holdsProgram length = true ↔ ∀ limit, cfg.addrLimit = some limit → length ≤ limit := by
  unfold Config.holdsProgram
  cases cfg.addrLimit <;> simp

end Sys2Proof

namespace Sys2Proof.Machine

/-! ### The memory array -/

/-- In canonical form the entries are exactly the cells that do not read 0. -/
theorem Memory.mem_iff_read {m : Memory} (h : m.wf) {c : Nat × Int} :
    c ∈ m ↔ m.read c.1 = c.2 ∧ c.2 ≠ 0 := by
  obtain ⟨a, v⟩ := c
  induction m with
  | nil => simp [Memory.read, eq_comm (a := (0 : Int))]
  | cons d m ih =>
    obtain ⟨b, w⟩ := d
    have hw : w ≠ 0 := h.2 (b, w) (by simp)
    have hb : (b, v) ∉ m := fun hmem => lt_irrefl b (Memory.head_lt h (b, v) hmem)
    by_cases hab : a = b
    · subst hab
      simp only [List.mem_cons, Prod.mk.injEq, true_and, hb, or_false, Memory.read, if_pos]
      exact ⟨fun hv => ⟨hv.symm, hv ▸ hw⟩, fun hv => hv.1.symm⟩
    · simpa [Memory.read, hab] using ih (Memory.wf_tail h)

theorem Memory.nodup {m : Memory} (h : m.wf) : m.Nodup :=
  h.1.imp fun {x y} (hlt : x.1 < y.1) (heq : x = y) => hlt.ne (congrArg Prod.fst heq)

/-- Settles O4: the entries are what the reads say, and their order is fixed. -/
theorem memoriesThatReadAlikeAreEqual : Obligations.MemoriesThatReadAlikeAreEqual := by
  intro m m' hm hm' hread
  have hsame : ∀ c, c ∈ m ↔ c ∈ m' := fun c => by
    rw [Memory.mem_iff_read hm, Memory.mem_iff_read hm', hread]
  have hperm := (List.perm_ext_iff_of_nodup (Memory.nodup hm) (Memory.nodup hm')).2 hsame
  exact hperm.eq_of_pairwise (fun x y _ _ hxy hyx => absurd hxy (Nat.lt_asymm hyx)) hm.1 hm'.1

/-- Cell `k` of a loaded program, 0 from its end on (70_reset_and_hazards.md R180). -/
theorem Memory.read_ofCells (vs : List Int) (a k : Nat) :
    (Memory.ofCells a vs).read (a + k) = vs.getD k 0 := by
  induction vs generalizing a k with
  | nil => rfl
  | cons v vs ih =>
    have hbelow : (Memory.ofCells (a + 1) vs).read a = 0 :=
      Memory.read_eq_zero fun c hc => Nat.ne_of_gt (Memory.ofCells_ge c hc).1
    cases k with
    | zero => by_cases hv : v = 0 <;> simp [Memory.ofCells, Memory.read, hv, hbelow]
    | succ k =>
      have hnext := ih (a + 1) k
      rw [Nat.add_right_comm, Nat.add_assoc] at hnext
      by_cases hv : v = 0 <;> simp [Memory.ofCells, Memory.read, hv, hnext]

/-! ### The address checks -/

theorem checkAddress_of_negative (cfg : Config) {a : Int} (h : a < 0) :
    checkAddress cfg a = .error ⟨.invalidAddress, a⟩ := checkAddress_error.2 (.inl ⟨h, rfl⟩)

theorem checkAddress_of_shut_out {cfg : Config} {a : Int} (h : 0 ≤ a)
    (hlimit : cfg.inRange a.toNat = false) :
    checkAddress cfg a = .error ⟨.resourceExhausted, a⟩ :=
  checkAddress_error.2 (.inr ⟨h, hlimit, rfl⟩)

theorem checkAddress_of_inRange {cfg : Config} {a : Int} (h : 0 ≤ a)
    (hlimit : cfg.inRange a.toNat = true) : checkAddress cfg a = .ok a.toNat :=
  checkAddress_ok.2 ⟨h, rfl, hlimit⟩

theorem checkAddress_natCast {cfg : Config} {n : Nat} (h : cfg.inRange n = true) :
    checkAddress cfg n = .ok n := checkAddress_ok.2 ⟨Int.natCast_nonneg n, rfl, h⟩

theorem memRead_of_inRange {s : State} {a : Int} (h : 0 ≤ a)
    (hlimit : s.cfg.inRange a.toNat = true) : memRead s a = .ok (s.mem.read a.toNat) :=
  memRead_ok.2 ⟨_, checkAddress_of_inRange h hlimit, rfl⟩

theorem memRead_natCast {s : State} {n : Nat} (h : s.cfg.inRange n = true) :
    memRead s n = .ok (s.mem.read n) := memRead_ok.2 ⟨n, checkAddress_natCast h, rfl⟩

/-- Settles O1: `inRange` is ADDR_LIMIT's range, and MemRead's checks decide between its three answers. -/
theorem memReadChecksThenReadsTheCell : Obligations.MemReadChecksThenReadsTheCell := by
  intro s a
  refine ⟨Config.inRange_iff, memRead_negative s, fun limit hsome h => ⟨fun hge => ?_, fun hlt => ?_⟩,
    fun hnone h => ?_, Memory.read_eq_zero⟩
  · have hout : s.cfg.inRange a.toNat = false :=
      Bool.eq_false_iff.2 fun hin => hge.not_gt (Config.inRange_iff.1 hin limit hsome)
    exact memRead_error.2 (checkAddress_of_shut_out h hout)
  · refine memRead_of_inRange h (Config.inRange_iff.2 fun l hl => ?_)
    rwa [← Option.some.inj (hsome.symm.trans hl)]
  · refine memRead_of_inRange h (Config.inRange_iff.2 fun l hl => ?_)
    simp [hnone] at hl

theorem memWrite_error {s : State} {a v : Int} {e : FaultReport}
    (h : checkAddress s.cfg a = .error e) : memWrite s a v = .error e := by simp [memWrite, h]

/-- Settles O2: MemWrite's checks, and the laws of the memory array where they pass. -/
theorem memWriteChangesExactlyOneCell : Obligations.MemWriteChangesExactlyOneCell := by
  intro s a v hwf
  refine ⟨fun hneg => memWrite_error (checkAddress_of_negative _ hneg),
    fun h hout => memWrite_error (checkAddress_of_shut_out h hout), fun h hin => ?_,
    fun c p n haddr => ?_⟩
  · exact ⟨s.store a.toNat v, memWrite_ok.2 ⟨_, checkAddress_of_inRange h hin, rfl⟩,
      Memory.read_write_same hwf _ v, fun b hb => Memory.read_write_other v hb, rfl⟩
  · exact ⟨s.store n v, memWrite_ok.2 ⟨n, checkAddress_natCast (writeAddress_inRange haddr), rfl⟩⟩

/-! ### Write targets -/

theorem writeAddress_position (s : State) (c p : Int) :
    writeAddress s c ⟨.position, p⟩ = checkAddress s.cfg p := rfl

theorem writeAddress_immediate (s : State) (c p : Int) :
    writeAddress s c ⟨.immediate, p⟩ = .error ⟨.invalidParameterMode, c⟩ := rfl

theorem writeAddress_relative {s : State} {p : Int} (c : Int)
    (hfits : s.cfg.fits (p + s.rb) = true) :
    writeAddress s c ⟨.relative, p⟩ = checkAddress s.cfg (p + s.rb) := by
  have haddr : relativeAddress s p = .ok (p + s.rb) := checkFits_ok.2 ⟨rfl, hfits⟩
  simp [writeAddress, haddr]

/-- Settles O6: in both addressing modes the target is the address check of the address it names. -/
theorem writeTargetFollowsItsMode : Obligations.WriteTargetFollowsItsMode := by
  intro s c p
  refine ⟨writeAddress_immediate s c p, fun m a hmode => ?_⟩
  have hcheck : writeAddress s c ⟨m, p⟩ = checkAddress s.cfg a := by
    rcases hmode with ⟨rfl, rfl⟩ | ⟨rfl, rfl, hfits⟩
    · exact writeAddress_position s c a
    · exact writeAddress_relative c hfits
  rw [hcheck]
  exact ⟨checkAddress_of_negative s.cfg, checkAddress_of_shut_out, checkAddress_of_inRange⟩

theorem relativeAddress_overflow {s : State} {p : Int} (h : s.cfg.fits (p + s.rb) = false) :
    relativeAddress s p = .error ⟨.valueOverflow, p + s.rb⟩ := checkFits_error.2 ⟨h, rfl⟩

/-- Settles O7: the relative address is checked before either resolution uses it (log 5). -/
theorem relativeAddressThatDoesNotFitOverflows : Obligations.RelativeAddressThatDoesNotFitOverflows := by
  intro s c p w hw hout
  have hfits : s.cfg.fits (p + s.rb) = false := by
    rw [Bool.eq_false_iff, Ne, (fitsIsTheSignedRange s.cfg _).2 w hw]
    omega
  have haddr := relativeAddress_overflow hfits
  exact ⟨by simp [readOperand, haddr], by simp [writeAddress, haddr]⟩

end Sys2Proof.Machine
end

