-- ==== Sys2Proof/Proofs/Completion.lean ====
section
/-! What each instruction does when every check passes (40_arithmetic.md, 41_io.md, 42_jumps.md,
43_compare.md, 44_base_and_halt.md): the next state, exactly. -/

namespace Sys2Proof.Machine

theorem exec_of_ok {i : Instr} {s t : State} (h : effectOf i s = .ok t) : exec i s = .next t :=
  exec_cases.2 (.inl h)

/-- The frame of a store that ends an instruction of four cells: the cell, IP, and nothing else. -/
theorem store_setIp_frame {s : State} (hwf : s.mem.wf) (d : Nat) (r ip : Int) :
    ((s.store d r).setIp ip).mem.read d = r ∧ sameMemoryExcept d s ((s.store d r).setIp ip) ∧
      ((s.store d r).setIp ip).ip = ip ∧ ((s.store d r).setIp ip).rb = s.rb ∧
      ((s.store d r).setIp ip).status = s.status ∧ sameRecord s ((s.store d r).setIp ip) ∧
      sameChannels s ((s.store d r).setIp ip) ∧ ((s.store d r).setIp ip).cfg = s.cfg :=
  ⟨Memory.read_write_same hwf d r, fun _ hb => Memory.read_write_other r hb, rfl, rfl, rfl,
    ⟨rfl, rfl, rfl, rfl⟩, ⟨rfl, rfl, rfl⟩, rfl⟩

section ThreeOperands

variable {s : State} {a b dst : Param} {x y : Int} {d : Nat}
  (ha : readOperand s a = .ok x) (hb : readOperand s b = .ok y) (hip : s.cfg.fits (s.ip + 4) = true)
include ha hb hip

theorem exec_add_completes (hd : writeAddress s (opcodeCell .add [a, b, dst]) dst = .ok d)
    (hr : s.cfg.fits (x + y) = true) :
    exec (.add a b dst) s = .next ((s.store d (x + y)).setIp (s.ip + 4)) :=
  exec_of_ok (storeResult_ok.2 ⟨x, y, d, _, ha, hb, hd, checkFits_ok.2 ⟨rfl, hr⟩, hip, rfl⟩)

theorem exec_mul_completes (hd : writeAddress s (opcodeCell .mul [a, b, dst]) dst = .ok d)
    (hr : s.cfg.fits (x * y) = true) :
    exec (.mul a b dst) s = .next ((s.store d (x * y)).setIp (s.ip + 4)) :=
  exec_of_ok (storeResult_ok.2 ⟨x, y, d, _, ha, hb, hd, checkFits_ok.2 ⟨rfl, hr⟩, hip, rfl⟩)

theorem exec_lt_completes (hd : writeAddress s (opcodeCell .lt [a, b, dst]) dst = .ok d) :
    exec (.lt a b dst) s = .next ((s.store d (lessThan x y)).setIp (s.ip + 4)) :=
  exec_of_ok ((storeResult_ok (f := fun x y => .ok (lessThan x y))).2
    ⟨x, y, d, _, ha, hb, hd, rfl, hip, rfl⟩)

theorem exec_eq_completes (hd : writeAddress s (opcodeCell .eq [a, b, dst]) dst = .ok d) :
    exec (.eq a b dst) s = .next ((s.store d (equals x y)).setIp (s.ip + 4)) :=
  exec_of_ok ((storeResult_ok (f := fun x y => .ok (equals x y))).2
    ⟨x, y, d, _, ha, hb, hd, rfl, hip, rfl⟩)

end ThreeOperands

/-! The truth values of LT and EQ (43_compare.md R130, R131). -/

theorem lessThan_of_lt {x y : Int} (h : x < y) : lessThan x y = 1 := by simp [lessThan, h]
theorem lessThan_of_le {x y : Int} (h : y ≤ x) : lessThan x y = 0 := by
  simp [lessThan, Int.not_lt.2 h]
theorem equals_of_eq {x y : Int} (h : x = y) : equals x y = 1 := by simp [equals, h]
theorem equals_of_ne {x y : Int} (h : x ≠ y) : equals x y = 0 := by simp [equals, h]

/-- Settles O19: ADD completes with its sum in the cell, and the store's frame gives the rest. -/
theorem addWritesTheExactSum : Obligations.AddWritesTheExactSum := by
  intro s a b dst x y d hwf ha hb hd hr hip
  exact ⟨_, exec_add_completes ha hb hip hd hr, store_setIp_frame hwf d _ _⟩

/-- Settles O20: MUL completes with its product in the cell, and the store's frame gives the rest. -/
theorem mulWritesTheExactProduct : Obligations.MulWritesTheExactProduct := by
  intro s a b dst x y d hwf ha hb hd hr hip
  exact ⟨_, exec_mul_completes ha hb hip hd hr, store_setIp_frame hwf d _ _⟩

/-- Settles O21: LT completes with its truth value in the cell. -/
theorem lessThanWritesOneOrZero : Obligations.LessThanWritesOneOrZero := by
  intro s a b dst x y d hwf ha hb hd hip
  obtain ⟨hread, hframe⟩ := store_setIp_frame hwf d (lessThan x y) (s.ip + 4)
  exact ⟨_, exec_lt_completes ha hb hip hd, fun h => hread.trans (lessThan_of_lt h),
    fun h => hread.trans (lessThan_of_le h), hframe⟩

/-- Settles O22: EQ completes with its truth value in the cell. -/
theorem equalsWritesOneOrZero : Obligations.EqualsWritesOneOrZero := by
  intro s a b dst x y d hwf ha hb hd hip
  obtain ⟨hread, hframe⟩ := store_setIp_frame hwf d (equals x y) (s.ip + 4)
  exact ⟨_, exec_eq_completes ha hb hip hd, fun h => hread.trans (equals_of_eq h),
    fun h => hread.trans (equals_of_ne h), hframe⟩

/-- Settles O23: the queue is not empty, so the effect is the one that stores its head. -/
theorem inputStoresTheOldestValue : Obligations.InputStoresTheOldestValue := by
  intro s dst v rest d hwf hd hq hip
  exact ⟨_, exec_of_ok (inputEffect_ok.2 ⟨d, hd, hip, .inr ⟨v, rest, hq, rfl⟩⟩), rfl,
    Memory.read_write_same hwf d v, fun _ hb => Memory.read_write_other v hb, rfl, rfl, rfl,
    ⟨rfl, rfl, rfl, rfl⟩, rfl, rfl, rfl⟩

/-- Settles O24: every check passes before the empty queue is found. -/
theorem inputWithAnEmptyQueueSuspends : Obligations.InputWithAnEmptyQueueSuspends :=
  fun _ _ d hd hq hip => exec_of_ok (inputEffect_ok.2 ⟨d, hd, hip, .inl ⟨hq, rfl⟩⟩)

/-- Settles O25: every check of OUT passes. -/
theorem outputAppendsItsOperand : Obligations.OutputAppendsItsOperand :=
  fun _ _ x hx hspace hip =>
    exec_of_ok (outputEffect_ok.2 ⟨x, hx, Config.not_full_iff.2 hspace, hip, rfl⟩)

/-- A jump whose operands resolve, as its condition decides (42_jumps.md R120 to R122). -/
theorem conditionalJump_of_resolved {op : BaseOp} {fires : Int → Bool} {s : State} {a t : Param}
    {x target : Int} (hx : readOperand s a = .ok x) (ht : readOperand s t = .ok target) :
    (fires x = true → conditionalJump op fires a t s = .ok (s.setIp target)) ∧
    (fires x = false → s.cfg.fits (s.ip + op.width) = true →
      conditionalJump op fires a t s = .ok (s.setIp (s.ip + op.width))) :=
  ⟨fun h => conditionalJump_ok.2 ⟨x, target, hx, ht, .inl ⟨h, rfl⟩⟩,
    fun h hip => conditionalJump_ok.2 ⟨x, target, hx, ht, .inr ⟨h, hip, rfl⟩⟩⟩

theorem firesOnTrue_iff {x : Int} : firesOnTrue x = true ↔ x ≠ 0 := decide_eq_true_iff
theorem firesOnTrue_eq_false_iff {x : Int} : firesOnTrue x = false ↔ x = 0 := by simp [firesOnTrue]
theorem firesOnFalse_iff {x : Int} : firesOnFalse x = true ↔ x = 0 := decide_eq_true_iff
theorem firesOnFalse_eq_false_iff {x : Int} : firesOnFalse x = false ↔ x ≠ 0 := decide_eq_false_iff_not

/-- Settles O26: the two ways a jump completes, at the condition of JT. -/
theorem jumpIfTrueSetsIp : Obligations.JumpIfTrueSetsIp := by
  intro s a t x target hx ht
  obtain ⟨hfires, hpasses⟩ := conditionalJump_of_resolved (op := .jt) (fires := firesOnTrue) hx ht
  exact ⟨fun h => exec_of_ok (hfires (firesOnTrue_iff.2 h)),
    fun h hip => exec_of_ok (hpasses (firesOnTrue_eq_false_iff.2 h) hip)⟩

/-- Settles O27: the two ways a jump completes, at the condition of JF. -/
theorem jumpIfFalseSetsIp : Obligations.JumpIfFalseSetsIp := by
  intro s a t x target hx ht
  obtain ⟨hfires, hpasses⟩ := conditionalJump_of_resolved (op := .jf) (fires := firesOnFalse) hx ht
  exact ⟨fun h => exec_of_ok (hfires (firesOnFalse_iff.2 h)),
    fun h hip => exec_of_ok (hpasses (firesOnFalse_eq_false_iff.2 h) hip)⟩

/-- Settles O28: every check of ARB passes. -/
theorem adjustAddsToRelativeBase : Obligations.AdjustAddsToRelativeBase :=
  fun _ _ x hx hr hip => exec_of_ok (adjustEffect_ok.2 ⟨x, hx, hr, hip, rfl⟩)

/-- Settles O29: HALT has no check. -/
theorem haltSetsHaltedOnly : Obligations.HaltSetsHaltedOnly :=
  fun s => exec_of_ok (effectOf_halt s)

/-- Whether a write target resolves does not depend on the opcode cell, which only a fault reports. -/
theorem writeAddress_any_cell {s : State} {c : Int} {p : Param} {d : Nat}
    (h : writeAddress s c p = .ok d) (c' : Int) : writeAddress s c' p = .ok d :=
  writeAddress_ok.2 (writeAddress_ok.1 h)

/-- After an ADD that completes, MemRead of the address its target names gives the sum, and RB and the
realisation are as before. -/
theorem memRead_after_add {s t : State} {a b dst : Param} {x y v addr : Int} {d : Nat}
    (hwf : s.mem.wf) (ha : readOperand s a = .ok x) (hb : readOperand s b = .ok y)
    (hr : s.cfg.fits (x + y) = true) (hip : s.cfg.fits (s.ip + 4) = true)
    (hd : writeAddress s v dst = .ok d) (haddr : checkAddress s.cfg addr = .ok d)
    (h : exec (.add a b dst) s = .next t) :
    t.rb = s.rb ∧ t.cfg = s.cfg ∧ memRead t addr = .ok (x + y) := by
  rw [exec_add_completes ha hb hip (writeAddress_any_cell hd _) hr] at h
  obtain rfl := Host.Outcome.next.inj h
  exact ⟨rfl, rfl, memRead_ok.2 ⟨d, haddr, (Memory.read_write_same hwf d _).symm⟩⟩

/-- Settles O31: both modes name the stored cell, RB being as before. -/
theorem relativeAndPositionModesNameOneCell : Obligations.RelativeAndPositionModesNameOneCell := by
  intro s t a b k x y hwf ha hb
  refine ⟨fun v hd hr hip h => ?_, fun v hd hrel hr hip h => ?_⟩
  · obtain ⟨hmode, -⟩ | ⟨-, -, haddr⟩ := writeAddress_ok.1 hd
    · cases hmode
    · obtain ⟨-, -, hread⟩ := memRead_after_add hwf ha hb hr hip hd haddr h
      exact hread
  · obtain ⟨hrb, hcfg, hread⟩ := memRead_after_add hwf ha hb hr hip hd hd h
    rw [← hcfg, ← hrb] at hrel
    rw [readOperand_relative hrel, hrb, hread]

end Sys2Proof.Machine
end

