-- ==== Sys2Proof/Proofs/ExecutionFaults.lean ====
section
/-! Which check of an instruction fails, and with which report (60_exceptions.md R154, R155, R158): one
inversion for the failure of each shared effect, beside the ones for its success in Laws/Exec.lean. -/

namespace Sys2Proof.Machine

theorem exec_of_error {i : Instr} {s : State} {e : FaultReport} (h : effectOf i s = .error e) :
    exec i s = .next (enterFault e .core s) := exec_cases.2 (.inr ⟨e, h, rfl⟩)

/-! ### Operand resolution -/

theorem readOperand_error {s : State} {p : Param} {e : FaultReport} :
    readOperand s p = .error e ↔
      (p.mode = .position ∧ memRead s p.raw = .error e) ∨
      (p.mode = .relative ∧ (relativeAddress s p.raw = .error e ∨
        ∃ a, relativeAddress s p.raw = .ok a ∧ memRead s a = .error e)) := by
  obtain ⟨m, raw⟩ := p
  cases m
  · simp [readOperand]
  · simp [readOperand]
  · simp only [readOperand]
    cases relativeAddress s raw <;> simp

theorem writeAddress_error {s : State} {c : Int} {p : Param} {e : FaultReport} :
    writeAddress s c p = .error e ↔
      (p.mode = .position ∧ checkAddress s.cfg p.raw = .error e) ∨
      (p.mode = .immediate ∧ e = ⟨.invalidParameterMode, c⟩) ∨
      (p.mode = .relative ∧ (relativeAddress s p.raw = .error e ∨
        ∃ a, relativeAddress s p.raw = .ok a ∧ checkAddress s.cfg a = .error e)) := by
  obtain ⟨m, raw⟩ := p
  cases m
  · simp [writeAddress]
  · simp [writeAddress, eq_comm (a := e)]
  · simp only [writeAddress]
    cases relativeAddress s raw <;> simp

theorem readTwo_error {s : State} {a b : Param} {e : FaultReport} :
    readTwo s a b = .error e ↔
      readOperand s a = .error e ∨ (∃ x, readOperand s a = .ok x) ∧ readOperand s b = .error e := by
  unfold readTwo
  cases readOperand s a <;> cases readOperand s b <;> simp

theorem readTwoAndTarget_error {s : State} {c : Int} {a b dst : Param} {e : FaultReport} :
    readTwoAndTarget s c a b dst = .error e ↔
      readTwo s a b = .error e ∨ (∃ xy, readTwo s a b = .ok xy) ∧ writeAddress s c dst = .error e := by
  unfold readTwoAndTarget
  cases readTwo s a b <;> cases writeAddress s c dst <;> simp

/-! ### Effects -/

theorem storeResult_error {op : BaseOp} {f : Int → Int → Except FaultReport Int} {a b dst : Param}
    {s : State} {e : FaultReport} :
    storeResult op f a b dst s = .error e ↔
      readTwoAndTarget s (opcodeCell op [a, b, dst]) a b dst = .error e ∨
      ∃ x y d, readTwoAndTarget s (opcodeCell op [a, b, dst]) a b dst = .ok (x, y, d) ∧
        (f x y = .error e ∨ (∃ r, f x y = .ok r) ∧ advancedIp s op.width = .error e) := by
  unfold storeResult
  rcases readTwoAndTarget s (opcodeCell op [a, b, dst]) a b dst with e' | ⟨x, y, d⟩
  · simp
  · rcases hr : f x y with e' | r <;> cases advancedIp s op.width <;> simp [hr]

theorem conditionalJump_error {op : BaseOp} {fires : Int → Bool} {a t : Param} {s : State}
    {e : FaultReport} :
    conditionalJump op fires a t s = .error e ↔
      readTwo s a t = .error e ∨
      ∃ x y, readTwo s a t = .ok (x, y) ∧ fires x = false ∧ advancedIp s op.width = .error e := by
  unfold conditionalJump
  rcases readTwo s a t with e' | ⟨x, y⟩
  · simp
  · by_cases hx : fires x = true <;> cases advancedIp s op.width <;> simp [hx]

theorem inputEffect_error {dst : Param} {s : State} {e : FaultReport} :
    inputEffect dst s = .error e ↔
      writeAddress s (opcodeCell .inp [dst]) dst = .error e ∨
      (∃ d, writeAddress s (opcodeCell .inp [dst]) dst = .ok d) ∧ advancedIp s 2 = .error e := by
  unfold inputEffect
  rw [show BaseOp.inp.width = 2 from rfl]
  cases writeAddress s (opcodeCell .inp [dst]) dst with
  | error => simp
  | ok d => cases advancedIp s 2 <;> cases s.inQ <;> simp

theorem outputEffect_error {a : Param} {s : State} {e : FaultReport} :
    outputEffect a s = .error e ↔
      readOperand s a = .error e ∨
      ∃ x, readOperand s a = .ok x ∧
        (checkOutSpace s x = .error e ∨ checkOutSpace s x = .ok () ∧ advancedIp s 2 = .error e) := by
  unfold outputEffect
  rw [show BaseOp.out.width = 2 from rfl]
  cases readOperand s a with
  | error => simp
  | ok x => rcases hspace : checkOutSpace s x <;> cases advancedIp s 2 <;> simp [hspace]

theorem adjustEffect_error {a : Param} {s : State} {e : FaultReport} :
    adjustEffect a s = .error e ↔
      readOperand s a = .error e ∨
      ∃ x, readOperand s a = .ok x ∧ (checkFits s.cfg (s.rb + x) = .error e ∨
        (∃ rb, checkFits s.cfg (s.rb + x) = .ok rb) ∧ advancedIp s 2 = .error e) := by
  unfold adjustEffect
  rw [show BaseOp.arb.width = 2 from rfl]
  cases readOperand s a with
  | error => simp
  | ok x => rcases hrb : checkFits s.cfg (s.rb + x) <;> cases advancedIp s 2 <;> simp [hrb]

/-! ### The first parameter that does not resolve -/

/-- The report of a resolution that fails. -/
def reportOf {α : Type} : Except FaultReport α → Option FaultReport
  | .error e => some e
  | .ok _ => none

theorem reportOf_some {α : Type} {x : Except FaultReport α} {e : FaultReport} :
    reportOf x = some e ↔ x = .error e := by cases x <;> simp [reportOf]

theorem reportOf_none {α : Type} {x : Except FaultReport α} : reportOf x = none ↔ ∃ v, x = .ok v := by
  cases x <;> simp [reportOf]

theorem resolutionError_read (s : State) (c : Int) (p : Param) :
    resolutionError s c .read p = reportOf (readOperand s p) := by
  unfold resolutionError
  cases readOperand s p <;> rfl

theorem resolutionError_write (s : State) (c : Int) (p : Param) :
    resolutionError s c .write p = reportOf (writeAddress s c p) := by
  unfold resolutionError
  cases writeAddress s c p <;> rfl

/-! The first failure of each format's parameters is the failure of the format's own resolution
(30_encoding.md R72, R82). -/

section Formats

variable (s : State) (c : Int) (a b dst : Param)

theorem firstError_read :
    ([(Role.read, a)].findSome? fun rp => resolutionError s c rp.1 rp.2) =
      reportOf (readOperand s a) := by
  rw [List.findSome?_cons, resolutionError_read]
  cases readOperand s a <;> rfl

theorem firstError_write :
    ([(Role.write, dst)].findSome? fun rp => resolutionError s c rp.1 rp.2) =
      reportOf (writeAddress s c dst) := by
  rw [List.findSome?_cons, resolutionError_write]
  cases writeAddress s c dst <;> rfl

theorem firstError_readTwo :
    ([(Role.read, a), (Role.read, b)].findSome? fun rp => resolutionError s c rp.1 rp.2) =
      reportOf (readTwo s a b) := by
  rw [List.findSome?_cons, firstError_read, resolutionError_read, readTwo]
  cases readOperand s a <;> cases readOperand s b <;> rfl

theorem firstError_readTwoAndTarget :
    ([(Role.read, a), (Role.read, b), (Role.write, dst)].findSome? fun rp =>
        resolutionError s c rp.1 rp.2) =
      reportOf (readTwoAndTarget s c a b dst) := by
  rw [List.findSome?_cons, List.findSome?_cons, firstError_write, resolutionError_read,
    resolutionError_read, readTwoAndTarget, readTwo]
  cases readOperand s a <;> cases readOperand s b <;> cases writeAddress s c dst <;> rfl

end Formats

/-- Settles O34: the first failure is that of the format's resolution, and every effect resolves its
parameters before anything else. -/
theorem firstUnresolvedParameterGivesTheFault : Obligations.FirstUnresolvedParameterGivesTheFault := by
  intro i s e h
  apply exec_of_error
  cases i with
  | add a b dst | mul a b dst | lt a b dst | eq a b dst =>
    have hres := reportOf_some.1 ((firstError_readTwoAndTarget s _ a b dst).symm.trans h)
    simp only [effectOf_add, effectOf_mul, effectOf_lt, effectOf_eq]
    exact storeResult_error.2 (.inl hres)
  | inp dst =>
    have hres := reportOf_some.1 ((firstError_write s _ dst).symm.trans h)
    exact inputEffect_error.2 (.inl hres)
  | out a =>
    have hres := reportOf_some.1 ((firstError_read s _ a).symm.trans h)
    exact outputEffect_error.2 (.inl hres)
  | jt a b | jf a b =>
    have hres := reportOf_some.1 ((firstError_readTwo s _ a b).symm.trans h)
    exact conditionalJump_error.2 (.inl hres)
  | arb a =>
    have hres := reportOf_some.1 ((firstError_read s _ a).symm.trans h)
    exact adjustEffect_error.2 (.inl hres)
  | halt => cases h

/-! ### The checks of a finite realisation -/

/-- The write target of an instruction of format F3RRW whose parameters all resolve. -/
theorem readTwoAndTarget_of_no_error {s : State} {c : Int} {a b dst : Param} {x y : Int}
    (h : reportOf (readTwoAndTarget s c a b dst) = none)
    (ha : readOperand s a = .ok x) (hb : readOperand s b = .ok y) :
    ∃ d, readTwoAndTarget s c a b dst = .ok (x, y, d) := by
  obtain ⟨⟨x', y', d⟩, hres⟩ := reportOf_none.1 h
  obtain ⟨-, -, hd⟩ := readTwoAndTarget_ok.1 hres
  exact ⟨d, readTwoAndTarget_ok.2 ⟨ha, hb, hd⟩⟩

theorem advancedIp_overflow {s : State} {w : Nat} (h : s.cfg.fits (s.ip + w) = false) :
    advancedIp s w = .error ⟨.valueOverflow, s.ip + w⟩ := advancedIp_error.2 ⟨h, rfl⟩

theorem checkFits_overflow {cfg : Config} {v : Int} (h : cfg.fits v = false) :
    checkFits cfg v = .error ⟨.valueOverflow, v⟩ := checkFits_error.2 ⟨h, rfl⟩

section Overflow

variable {s : State} {op : BaseOp} {f : Int → Int → Except FaultReport Int} {a b dst : Param}
  {x y : Int} {e : FaultReport}
  (hnone : reportOf (readTwoAndTarget s (opcodeCell op [a, b, dst]) a b dst) = none)
  (ha : readOperand s a = .ok x) (hb : readOperand s b = .ok y)
include hnone ha hb

/-- A result's own check fails first (log 6). -/
theorem storeResult_result_fault (hr : f x y = .error e) : storeResult op f a b dst s = .error e := by
  obtain ⟨d, hres⟩ := readTwoAndTarget_of_no_error hnone ha hb
  exact storeResult_error.2 (.inr ⟨x, y, d, hres, .inl hr⟩)

theorem storeResult_ip_fault {r : Int} (hr : f x y = .ok r)
    (hip : advancedIp s op.width = .error e) : storeResult op f a b dst s = .error e := by
  obtain ⟨d, hres⟩ := readTwoAndTarget_of_no_error hnone ha hb
  exact storeResult_error.2 (.inr ⟨x, y, d, hres, .inr ⟨⟨r, hr⟩, hip⟩⟩)

end Overflow

/-- A jump that does not fire checks IP + 3. -/
theorem conditionalJump_ip_fault {s : State} {op : BaseOp} {fires : Int → Bool} {a b : Param}
    {x y : Int} {e : FaultReport} (ha : readOperand s a = .ok x) (hb : readOperand s b = .ok y)
    (hx : fires x = false) (hip : advancedIp s op.width = .error e) :
    conditionalJump op fires a b s = .error e :=
  conditionalJump_error.2 (.inr ⟨x, y, readTwo_ok.2 ⟨ha, hb⟩, hx, hip⟩)

/-- Settles O35: with every parameter resolved, the first of the remaining checks that fails is the one
each clause names. -/
theorem finiteRealisationFaultsInsteadOfWrapping :
    Obligations.FiniteRealisationFaultsInsteadOfWrapping := by
  intro s i hnone
  refine ⟨fun a b dst x y ha hb => ⟨?_, ?_, ?_, ?_⟩, fun a x ha => ⟨?_, ?_, ?_⟩, ?_⟩
  · rintro rfl hr
    have hres := (firstError_readTwoAndTarget s _ a b dst).symm.trans hnone
    exact exec_of_error (storeResult_result_fault hres ha hb (checkFits_overflow hr))
  · rintro rfl hr
    have hres := (firstError_readTwoAndTarget s _ a b dst).symm.trans hnone
    exact exec_of_error (storeResult_result_fault hres ha hb (checkFits_overflow hr))
  · intro hi hip
    have hover := advancedIp_overflow (w := 4) hip
    have hres := fun c => (firstError_readTwoAndTarget s c a b dst).symm
    apply exec_of_error
    rcases hi with ⟨rfl, hr⟩ | ⟨rfl, hr⟩ | rfl | rfl
    · exact storeResult_ip_fault ((hres _).trans hnone) ha hb (checkFits_ok.2 ⟨rfl, hr⟩) hover
    · exact storeResult_ip_fault ((hres _).trans hnone) ha hb (checkFits_ok.2 ⟨rfl, hr⟩) hover
    · exact storeResult_ip_fault (f := fun x y => .ok (lessThan x y)) ((hres _).trans hnone) ha hb rfl
        hover
    · exact storeResult_ip_fault (f := fun x y => .ok (equals x y)) ((hres _).trans hnone) ha hb rfl
        hover
  · intro hi hip
    have hover := advancedIp_overflow (w := 3) hip
    apply exec_of_error
    rcases hi with ⟨rfl, hx⟩ | ⟨rfl, hx⟩
    · exact conditionalJump_ip_fault ha hb (firesOnTrue_eq_false_iff.2 hx) hover
    · exact conditionalJump_ip_fault ha hb (firesOnFalse_eq_false_iff.2 hx) hover
  · rintro rfl hr
    exact exec_of_error (adjustEffect_error.2 (.inr ⟨x, ha, .inl (checkFits_overflow hr)⟩))
  · rintro rfl hfull
    have hspace := (checkOutSpace_error (v := x)).2 ⟨Config.full_iff.2 hfull, rfl⟩
    exact exec_of_error (outputEffect_error.2 (.inr ⟨x, ha, .inl hspace⟩))
  · intro hi hip
    have hover := advancedIp_overflow (w := 2) hip
    apply exec_of_error
    rcases hi with ⟨rfl, hr⟩ | ⟨rfl, hspace⟩
    · exact adjustEffect_error.2 (.inr ⟨x, ha, .inr ⟨⟨_, checkFits_ok.2 ⟨rfl, hr⟩⟩, hover⟩⟩)
    · have hok := (checkOutSpace_ok (v := x) (u := ())).2 (Config.not_full_iff.2 hspace)
      exact outputEffect_error.2 (.inr ⟨x, ha, .inr ⟨hok, hover⟩⟩)
  · rintro dst rfl hip
    have hres := reportOf_none.1 ((firstError_write s _ dst).symm.trans hnone)
    exact exec_of_error (inputEffect_error.2 (.inr ⟨hres, advancedIp_overflow (w := 2) hip⟩))

/-- Settles O32: fault entry asks only whether the core is FAULTED already. -/
theorem faultEntryRecordsTheFirstFault : Obligations.FaultEntryRecordsTheFirstFault :=
  fun s e o => ⟨fun h => if_neg h, enterFault_of_faulted s e o⟩

end Sys2Proof.Machine
end

