-- ==== Sys2Proof/Proofs/FetchCycle.lean ====
section
/-! The fetch of an instruction (30_encoding.md R82) when its cells encode one, and the check of the
fetch that fails first (60_exceptions.md R158 items 1 to 4). -/

namespace Sys2Proof.Machine

/-! ### A fetch that succeeds -/

/-- Address `a + (k + 1)`, counted from `a + 1`. -/
theorem add_succ_natCast (a : Int) (k : Nat) : a + ((k + 1 : Nat) : Int) = a + 1 + k := by
  push_cast
  ring

/-- The parameter cells are fetched when each of them reads. -/
theorem fetchCells_of_memRead {s : State} {vs : List Int} {a : Int}
    (h : ∀ k (hk : k < vs.length), memRead s (a + k) = .ok vs[k]) :
    fetchCells s a vs.length = .ok vs := by
  induction vs generalizing a with
  | nil => rfl
  | cons v vs ih =>
    have hhead : memRead s a = .ok v := by
      have h0 := h 0 (Nat.succ_pos _)
      rwa [Nat.cast_zero, add_zero] at h0
    have htail : fetchCells s (a + 1) vs.length = .ok vs := ih fun k hk => by
      rw [← add_succ_natCast]
      exact h (k + 1) (Nat.succ_lt_succ hk)
    simp [fetchCells, hhead, htail]

/-- The cells at IP that encode a well-formed instruction are fetched as that instruction. -/
theorem fetchInstr_of_encode {s : State} {i : Instr} (hwf : i.wf = true)
    (h : ∀ k (hk : k < (encode i).length), memRead s (s.ip + k) = .ok (encode i)[k]) :
    fetchInstr s = .ok i := by
  have hop : memRead s s.ip = .ok (opcodeCell i.op i.params) := by
    simpa [encode] using h 0 (by simp [encode])
  have hcells : fetchCells s (s.ip + 1) (i.params.map Param.raw).length =
      .ok (i.params.map Param.raw) := fetchCells_of_memRead fun k hk => by
    rw [← add_succ_natCast]
    exact h (k + 1) (Nat.succ_lt_succ hk)
  rw [List.length_map, Instr.params_length] at hcells
  exact fetchInstr_ok.2 ⟨_, _, _, hop, decodeOpcode_opcodeCell hwf, hcells, (assemble_fields i).symm⟩

/-- Settles O14: the fetch reads the encoding cell by cell and decodes it. -/
theorem stepRunsTheInstructionAtIp : Obligations.StepRunsTheInstructionAtIp := by
  intro s i hrun hip hwf hcells
  refine step_eq_exec hrun (fetchInstr_of_encode hwf fun k hk => ?_)
  obtain ⟨hin, hread⟩ := hcells k hk
  have haddr : s.ip + k = ((s.ip.toNat + k : Nat) : Int) := by omega
  rw [haddr, memRead_natCast hin, hread]

/-! ### A fetch that fails -/

theorem fetchInstr_error {s : State} {e : FaultReport} :
    fetchInstr s = .error e ↔
      memRead s s.ip = .error e ∨
      ∃ c, memRead s s.ip = .ok c ∧
        ((∃ d, decodeOpcode c = .error d ∧ e = decodeReport d) ∨
         ∃ f, decodeOpcode c = .ok f ∧ fetchCells s (s.ip + 1) f.op.paramCount = .error e) := by
  unfold fetchInstr
  rcases memRead s s.ip with e' | c
  · simp
  · rcases hop : decodeOpcode c with d | f
    · simp [hop, eq_comm (a := e)]
    · rcases hcells : fetchCells s (s.ip + 1) f.op.paramCount with e' | raws <;> simp [hop, hcells]

/-- The first parameter cell that does not read gives the fault. -/
theorem fetchCells_first_error {s : State} {e : FaultReport} {n k : Nat} {a : Int} (hk : k < n)
    (hbefore : ∀ j, j < k → ∃ v, memRead s (a + j) = .ok v)
    (h : memRead s (a + k) = .error e) : fetchCells s a n = .error e := by
  induction k generalizing a n with
  | zero =>
    obtain ⟨n, rfl⟩ := Nat.exists_eq_succ_of_ne_zero hk.ne'
    have hhead : memRead s a = .error e := by simpa using h
    simp [fetchCells, hhead]
  | succ k ih =>
    obtain ⟨n, rfl⟩ := Nat.exists_eq_succ_of_ne_zero (Nat.ne_zero_of_lt hk)
    obtain ⟨v, hhead⟩ : ∃ v, memRead s a = .ok v := by simpa using hbefore 0 (Nat.succ_pos k)
    have htail : fetchCells s (a + 1) n = .error e := by
      refine ih (Nat.lt_of_succ_lt_succ hk) (fun j hj => ?_) ?_
      · rw [← add_succ_natCast]
        exact hbefore (j + 1) (Nat.succ_lt_succ hj)
      · rwa [← add_succ_natCast]
    simp [fetchCells, hhead, htail]

theorem step_of_fetch_error {s : State} {e : FaultReport} (hrun : s.status = .running)
    (h : fetchInstr s = .error e) : step s = .next (enterFault e .core s) :=
  step_cases.2 (.inr (.inl ⟨hrun, e, h, rfl⟩))

/-- Settles O15: each clause is the check of the fetch that fails first. -/
theorem fetchFaultsAreTaken : Obligations.FetchFaultsAreTaken := by
  intro s hrun
  refine ⟨fun hneg => ?_, fun hip hout => ?_, fun c hc => ⟨fun hillegal => ?_, fun h hbase hrow => ?_,
    fun f k hf hk hbefore hout => ?_⟩⟩ <;> apply step_of_fetch_error hrun <;> rw [fetchInstr_error]
  · exact .inl (memRead_negative s hneg)
  · exact .inl (memRead_error.2 (checkAddress_of_shut_out hip hout))
  · exact .inr ⟨c, hc, .inl ⟨_, decodeOpcode_illegalOpcode_iff.2 hillegal, rfl⟩⟩
  · exact .inr ⟨c, hc, .inl ⟨_, decodeOpcode_invalidParameterMode_iff.2 ⟨h, hbase, hrow⟩, rfl⟩⟩
  · obtain ⟨n, haddr, -⟩ := memRead_ok.1 hc
    have hip : 0 ≤ s.ip := (checkAddress_ok.1 haddr).1
    have hcells := fetchCells_first_error hk
      (fun j hj => ⟨_, memRead_of_inRange (by omega) (hbefore j hj)⟩)
      (memRead_error.2 (checkAddress_of_shut_out (by omega) hout))
    exact .inr ⟨c, hc, .inr ⟨f, hf, hcells⟩⟩

end Sys2Proof.Machine
end

