-- ==== Sys2Proof/Proofs/StepOutcome.lean ====
section
/-! The outcome of a step, said once: idle, a fault of a kind the realisation has, or one of the ways an
instruction completes. Every rule about all steps is a case split over these. -/

namespace Sys2Proof.Machine

/-! ### Faults are of a kind that exists in the realisation (60_exceptions.md R150) -/

theorem checkAddress_hasFault {cfg : Config} {a : Int} {e : FaultReport}
    (h : checkAddress cfg a = .error e) : hasFault cfg e.cause = true := by
  rcases checkAddress_error.1 h with ⟨-, rfl⟩ | ⟨-, hout, rfl⟩
  · rfl
  · cases hlimit : cfg.addrLimit with
    | none => simp [Config.inRange, hlimit] at hout
    | some limit => simp [hasFault, hlimit]

theorem checkFits_hasFault {cfg : Config} {v : Int} {e : FaultReport}
    (h : checkFits cfg v = .error e) : hasFault cfg e.cause = true := by
  obtain ⟨hfits, rfl⟩ := checkFits_error.1 h
  cases hbits : cfg.cellBits with
  | none => simp [Config.fits, hbits] at hfits
  | some w => simp [hasFault, hbits]

theorem checkOutSpace_hasFault {s : State} {v : Int} {e : FaultReport}
    (h : checkOutSpace s v = .error e) : hasFault s.cfg e.cause = true := by
  obtain ⟨hfull, rfl⟩ := checkOutSpace_error.1 h
  obtain ⟨depth, hdepth, -⟩ := Config.full_iff.1 hfull
  simp [hasFault, hdepth]

theorem memRead_hasFault {s : State} {a : Int} {e : FaultReport} (h : memRead s a = .error e) :
    hasFault s.cfg e.cause = true := checkAddress_hasFault (memRead_error.1 h)

theorem readOperand_hasFault {s : State} {p : Param} {e : FaultReport}
    (h : readOperand s p = .error e) : hasFault s.cfg e.cause = true := by
  rcases readOperand_error.1 h with ⟨-, hread⟩ | ⟨-, haddr | ⟨a, -, hread⟩⟩
  · exact memRead_hasFault hread
  · exact checkFits_hasFault haddr
  · exact memRead_hasFault hread

theorem writeAddress_hasFault {s : State} {c : Int} {p : Param} {e : FaultReport}
    (h : writeAddress s c p = .error e) : hasFault s.cfg e.cause = true := by
  rcases writeAddress_error.1 h with ⟨-, hcheck⟩ | ⟨-, rfl⟩ | ⟨-, haddr | ⟨a, -, hcheck⟩⟩
  · exact checkAddress_hasFault hcheck
  · rfl
  · exact checkFits_hasFault haddr
  · exact checkAddress_hasFault hcheck

theorem readTwo_hasFault {s : State} {a b : Param} {e : FaultReport}
    (h : readTwo s a b = .error e) : hasFault s.cfg e.cause = true := by
  rcases readTwo_error.1 h with ha | ⟨-, hb⟩
  · exact readOperand_hasFault ha
  · exact readOperand_hasFault hb

theorem storeResult_hasFault {op : BaseOp} {f : Int → Int → Except FaultReport Int} {a b dst : Param}
    {s : State} {e : FaultReport}
    (hresult : ∀ x y e, f x y = .error e → hasFault s.cfg e.cause = true)
    (h : storeResult op f a b dst s = .error e) : hasFault s.cfg e.cause = true := by
  rcases storeResult_error.1 h with hres | ⟨x, y, d, -, hr | ⟨-, hip⟩⟩
  · rcases readTwoAndTarget_error.1 hres with htwo | ⟨-, hd⟩
    · exact readTwo_hasFault htwo
    · exact writeAddress_hasFault hd
  · exact hresult x y e hr
  · exact checkFits_hasFault hip

theorem effectOf_hasFault {i : Instr} {s : State} {e : FaultReport} (h : effectOf i s = .error e) :
    hasFault s.cfg e.cause = true := by
  cases i with
  | add a b dst | mul a b dst => exact storeResult_hasFault (fun _ _ _ => checkFits_hasFault) h
  | lt a b dst | eq a b dst =>
    simp only [effectOf_lt, effectOf_eq] at h
    exact storeResult_hasFault (fun _ _ _ hr => by cases hr) h
  | inp dst =>
    rcases inputEffect_error.1 h with hd | ⟨-, hip⟩
    · exact writeAddress_hasFault hd
    · exact checkFits_hasFault hip
  | out a =>
    rcases outputEffect_error.1 h with ha | ⟨x, -, hspace | ⟨-, hip⟩⟩
    · exact readOperand_hasFault ha
    · exact checkOutSpace_hasFault hspace
    · exact checkFits_hasFault hip
  | jt a t | jf a t =>
    rcases conditionalJump_error.1 h with htwo | ⟨x, y, -, -, hip⟩
    · exact readTwo_hasFault htwo
    · exact checkFits_hasFault hip
  | arb a =>
    rcases adjustEffect_error.1 h with ha | ⟨x, -, hr | ⟨-, hip⟩⟩
    · exact readOperand_hasFault ha
    · exact checkFits_hasFault hr
    · exact checkFits_hasFault hip
  | halt => cases h

theorem fetchCells_hasFault {s : State} {n : Nat} {a : Int} {e : FaultReport}
    (h : fetchCells s a n = .error e) : hasFault s.cfg e.cause = true := by
  induction n generalizing a with
  | zero => cases h
  | succ n ih =>
    rw [fetchCells] at h
    rcases hread : memRead s a with e' | v
    · obtain rfl : e' = e := by simpa [hread] using h
      exact memRead_hasFault hread
    · rcases hrest : fetchCells s (a + 1) n with e' | vs
      · obtain rfl : e' = e := by simpa [hread, hrest] using h
        exact ih hrest
      · simp [hread, hrest] at h

theorem fetchInstr_hasFault {s : State} {e : FaultReport} (h : fetchInstr s = .error e) :
    hasFault s.cfg e.cause = true := by
  rcases fetchInstr_error.1 h with hread | ⟨c, -, ⟨d, -, rfl⟩ | ⟨f, -, hcells⟩⟩
  · exact memRead_hasFault hread
  · cases d <;> rfl
  · exact fetchCells_hasFault hcells

/-! ### Completion -/

/-- The ways an instruction completes or suspends, each with the checks that passed (30_encoding.md R82,
R83). -/
inductive Completes (s : State) : Instr → State → Prop
  /-- ADD, MUL, LT and EQ store the value of their own rule. -/
  | stores {i : Instr} {d : Nat} {v : Int} (hinp : ∀ dst, i ≠ .inp dst)
      (haddr : storeAddress i s = some d) (hvalue : storedValue i s = some v)
      (hfits : s.cfg.wf = true → s.cfg.fits v = true) (hip : s.cfg.fits (s.ip + 4) = true) :
      Completes s i ((s.store d v).setIp (s.ip + 4))
  | inputs {dst : Param} {d : Nat} {v : Int} {rest : List Int}
      (haddr : storeAddress (.inp dst) s = some d) (hqueue : s.inQ = v :: rest)
      (hip : s.cfg.fits (s.ip + 2) = true) :
      Completes s (.inp dst) (((s.setInQ rest).store d v).setIp (s.ip + 2))
  | suspends {dst : Param} {d : Nat} (haddr : storeAddress (.inp dst) s = some d)
      (hqueue : s.inQ = []) (hip : s.cfg.fits (s.ip + 2) = true) : Completes s (.inp dst) s.suspend
  | outputs {a : Param} {x : Int} (hx : readOperand s a = .ok x)
      (hspace : Config.full s.cfg.outDepth (s.outLog.length - s.outCur) = false)
      (hip : s.cfg.fits (s.ip + 2) = true) :
      Completes s (.out a) ((s.pushOut x).setIp (s.ip + 2))
  | jumps {i : Instr} {a target : Param} {x y : Int}
      (hfires : (i = .jt a target ∧ x ≠ 0) ∨ (i = .jf a target ∧ x = 0))
      (hx : readOperand s a = .ok x) (hy : readOperand s target = .ok y) :
      Completes s i (s.setIp y)
  | passes {i : Instr} {a target : Param} (hjump : i = .jt a target ∨ i = .jf a target)
      (hip : s.cfg.fits (s.ip + 3) = true) : Completes s i (s.setIp (s.ip + 3))
  | adjusts {a : Param} {x : Int} (hx : readOperand s a = .ok x)
      (hrb : s.cfg.fits (s.rb + x) = true) (hip : s.cfg.fits (s.ip + 2) = true) :
      Completes s (.arb a) ((s.setRb (s.rb + x)).setIp (s.ip + 2))
  | halts : Completes s .halt (s.setStatus .halted)

theorem storeAddress_of_target {i : Instr} {s : State} {dst : Param} {d : Nat}
    (hdst : writeTarget i = some dst)
    (hd : writeAddress s (opcodeCell i.op i.params) dst = .ok d) : storeAddress i s = some d := by
  simp [storeAddress, hdst, hd]

/-- The cell an instruction stores to exists in the realisation. -/
theorem storeAddress_inRange {i : Instr} {s : State} {d : Nat} (h : storeAddress i s = some d) :
    s.cfg.inRange d = true := by
  unfold storeAddress at h
  split at h
  · cases h
  · next dst hdst =>
    rcases hd : writeAddress s (opcodeCell i.op i.params) dst with e | d'
    · simp [hd] at h
    · obtain rfl : d' = d := by simpa [hd] using h
      exact writeAddress_inRange hd

theorem ofOperands_of_resolved {s : State} {a b : Param} {x y : Int} (rule : Int → Int → Int)
    (ha : readOperand s a = .ok x) (hb : readOperand s b = .ok y) :
    ofOperands s a b rule = some (rule x y) := by simp [ofOperands, ha, hb]

/-- The truth values fit every realisation the rules make sense for (43_compare.md R130; log 12). -/
theorem fits_truthCell {cfg : Config} (h : cfg.wf = true) (b : Bool) :
    cfg.fits (truthCell b) = true := by
  cases hbits : cfg.cellBits with
  | none => exact (fitsIsTheSignedRange cfg _).1 hbits
  | some w =>
    have hw : 2 ≤ w := by simpa [Config.wf, hbits] using h
    have hpow : (2 : Int) ^ 1 ≤ 2 ^ (w - 1) := pow_le_pow_right₀ (by decide) (by omega)
    have hbit : 0 ≤ truthCell b ∧ truthCell b ≤ 1 := by cases b <;> decide
    exact ((fitsIsTheSignedRange cfg _).2 w hbits).2 (by omega)

theorem completes_of_effectOf {i : Instr} {s t : State} (h : effectOf i s = .ok t) :
    Completes s i t := by
  cases i with
  | add a b dst | mul a b dst =>
    obtain ⟨x, y, d, r, ha, hb, hd, hr, hip, rfl⟩ := storeResult_ok.1 h
    obtain ⟨rfl, hfits⟩ := checkFits_ok.1 hr
    exact .stores (fun _ => nofun) (storeAddress_of_target rfl hd) (ofOperands_of_resolved _ ha hb)
      (fun _ => hfits) hip
  | lt a b dst =>
    rw [effectOf_lt] at h
    obtain ⟨x, y, d, r, ha, hb, hd, hr, hip, rfl⟩ := storeResult_ok.1 h
    obtain rfl : lessThan x y = r := Except.ok.inj hr
    have hrule : lessThan x y = if x < y then 1 else 0 := by simp [lessThan, truthCell]
    exact .stores (fun _ => nofun) (storeAddress_of_target rfl hd)
      (hrule ▸ ofOperands_of_resolved _ ha hb) (fun hwf => fits_truthCell hwf _) hip
  | eq a b dst =>
    rw [effectOf_eq] at h
    obtain ⟨x, y, d, r, ha, hb, hd, hr, hip, rfl⟩ := storeResult_ok.1 h
    obtain rfl : equals x y = r := Except.ok.inj hr
    have hrule : equals x y = if x = y then 1 else 0 := by simp [equals, truthCell]
    exact .stores (fun _ => nofun) (storeAddress_of_target rfl hd)
      (hrule ▸ ofOperands_of_resolved _ ha hb) (fun hwf => fits_truthCell hwf _) hip
  | inp dst =>
    obtain ⟨d, hd, hip, ⟨hqueue, rfl⟩ | ⟨v, rest, hqueue, rfl⟩⟩ := inputEffect_ok.1 h
    · exact .suspends (storeAddress_inp hd) hqueue hip
    · exact .inputs (storeAddress_inp hd) hqueue hip
  | out a =>
    obtain ⟨x, hx, hspace, hip, rfl⟩ := outputEffect_ok.1 h
    exact .outputs hx hspace hip
  | jt a target =>
    obtain ⟨x, y, hx, hy, ⟨hfires, rfl⟩ | ⟨-, hip, rfl⟩⟩ := conditionalJump_ok.1 h
    · exact .jumps (.inl ⟨rfl, firesOnTrue_iff.1 hfires⟩) hx hy
    · exact .passes (.inl rfl) hip
  | jf a target =>
    obtain ⟨x, y, hx, hy, ⟨hfires, rfl⟩ | ⟨-, hip, rfl⟩⟩ := conditionalJump_ok.1 h
    · exact .jumps (.inr ⟨rfl, firesOnFalse_iff.1 hfires⟩) hx hy
    · exact .passes (.inr rfl) hip
  | arb a =>
    obtain ⟨x, hx, hrb, hip, rfl⟩ := adjustEffect_ok.1 h
    exact .adjusts hx hrb hip
  | halt =>
    obtain rfl : s.setStatus .halted = t := Except.ok.inj h
    exact .halts

/-- What executing an instruction can do. -/
theorem exec_outcome {i : Instr} {s t : State} (h : exec i s = .next t) :
    Completes s i t ∨ ∃ e, hasFault s.cfg e.cause = true ∧ t = enterFault e .core s := by
  rcases exec_cases.1 h with hok | ⟨e, herror, rfl⟩
  · exact .inl (completes_of_effectOf hok)
  · exact .inr ⟨e, effectOf_hasFault herror, rfl⟩

/-- What a step can do. -/
theorem step_outcome {s t : State} (h : step s = .next t) :
    (s.status ≠ .running ∧ t = s) ∨
    (s.status = .running ∧ ∃ e, hasFault s.cfg e.cause = true ∧ t = enterFault e .core s) ∨
    (s.status = .running ∧ ∃ i, fetchInstr s = .ok i ∧ Completes s i t) := by
  rcases step_cases.1 h with hidle | ⟨hrun, e, hfetch, rfl⟩ | ⟨hrun, i, hfetch, hexec⟩
  · exact .inl hidle
  · exact .inr (.inl ⟨hrun, e, fetchInstr_hasFault hfetch, rfl⟩)
  · rcases exec_outcome hexec with hdone | hfault
    · exact .inr (.inr ⟨hrun, i, hfetch, hdone⟩)
    · exact .inr (.inl ⟨hrun, hfault⟩)

end Sys2Proof.Machine
end

