-- ==== Sys2Proof/Proofs/StepFrame.lean ====
section
/-! What each piece of state can become in a step (10_state.md R32): one lemma per register over the
ways an instruction completes, and the rules about all steps from these. -/

namespace Sys2Proof.Machine

/-! ### One register at a time -/

section Registers

variable {s t : State} {i : Instr} (h : Completes s i t)
include h

theorem Completes.cfg : t.cfg = s.cfg := by cases h <;> rfl

theorem Completes.outCur : t.outCur = s.outCur := by cases h <;> rfl

theorem Completes.record : sameRecord s t := by cases h <;> exact ⟨rfl, rfl, rfl, rfl⟩

theorem Completes.read_other {a : Nat} (ha : storeAddress i s ≠ some a) :
    t.mem.read a = s.mem.read a := by
  cases h with
  | stores _ haddr _ _ _ | inputs haddr _ _ =>
    exact Memory.read_write_other _ fun heq => ha (heq ▸ haddr)
  | _ => rfl

theorem Completes.rb :
    t.rb = s.rb ∨ ∃ a x, i = .arb a ∧ readOperand s a = .ok x ∧ t.rb = s.rb + x := by
  cases h with
  | adjusts hx _ _ => exact .inr ⟨_, _, rfl, hx, rfl⟩
  | _ => exact .inl rfl

theorem Completes.outLog :
    t.outLog = s.outLog ∨
      ∃ a x, i = .out a ∧ readOperand s a = .ok x ∧ t.outLog = s.outLog ++ [x] := by
  cases h with
  | outputs hx _ _ => exact .inr ⟨_, _, rfl, hx, rfl⟩
  | _ => exact .inl rfl

theorem Completes.inQ : t.inQ = s.inQ ∨ ∃ dst v, i = .inp dst ∧ s.inQ = v :: t.inQ := by
  cases h with
  | inputs _ hqueue _ => exact .inr ⟨_, _, rfl, hqueue⟩
  | _ => exact .inl rfl

theorem Completes.status :
    t.status = s.status ∨ (t.status = .halted ∧ i = .halt) ∨
      (t.status = .awaitingInput ∧ s.inQ = [] ∧ ∃ dst, i = .inp dst) := by
  cases h with
  | halts => exact .inr (.inl ⟨rfl, rfl⟩)
  | suspends _ hqueue _ => exact .inr (.inr ⟨rfl, hqueue, _, rfl⟩)
  | _ => exact .inl rfl

/-- IP goes up but for a jump that fires, whose target operand it becomes (42_jumps.md R122). -/
theorem Completes.ip :
    s.ip ≤ t.ip ∨ ∃ a target x, ((i = .jt a target ∧ x ≠ 0) ∨ (i = .jf a target ∧ x = 0)) ∧
      readOperand s a = .ok x ∧ readOperand s target = .ok t.ip := by
  cases h with
  | jumps hfires hx hy => exact .inr ⟨_, _, _, hfires, hx, hy⟩
  | suspends | halts => exact .inl (le_refl s.ip)
  | _ => exact .inl (Int.le_add_of_nonneg_right (by decide))

end Registers

/-- Settles O30: register by register where the instruction completes, and by fault entry's own frame
where it faults. -/
theorem everyInstructionKeepsItsFrame : Obligations.EveryInstructionKeepsItsFrame := by
  intro i s t h
  rcases exec_outcome h with hdone | ⟨e, -, rfl⟩
  · refine ⟨fun a ha => hdone.read_other ha, hdone.rb.imp_right ?_, hdone.outLog, hdone.inQ,
      hdone.outCur, hdone.cfg, hdone.status.imp_right .inr, .inl hdone.record⟩
    rintro ⟨a, x, hi, -⟩
    exact ⟨a, hi⟩
  · refine ⟨fun a _ => by rw [enterFault_mem], .inl (enterFault_rb s e _),
      .inl (enterFault_outLog s e _), .inl (enterFault_inQ s e _), enterFault_outCur s e _,
      enterFault_cfg s e _, .inr (.inl (enterFault_status s e _)), ?_⟩
    by_cases hfaulted : s.status = .faulted
    · rw [enterFault_of_faulted s e _ hfaulted]
      exact .inl ⟨rfl, rfl, rfl, rfl⟩
    · exact .inr ⟨enterFault_status s e _, hfaulted⟩

/-! ### Rules about all steps -/

theorem step_cfg {s t : State} (h : step s = .next t) : t.cfg = s.cfg := by
  rcases step_outcome h with ⟨-, rfl⟩ | ⟨-, e, -, rfl⟩ | ⟨-, i, -, hdone⟩
  · rfl
  · exact enterFault_cfg s e _
  · exact hdone.cfg

/-- Settles O17: no outcome of a step is READY but the idle one. -/
theorem everyStepAnswersANextState : Obligations.EveryStepAnswersANextState := by
  intro s
  obtain ⟨t, h⟩ := step_total s
  refine ⟨t, h, step_cfg h, fun hready => ?_, fun hidle => ?_⟩
  · rcases step_outcome h with ⟨-, rfl⟩ | ⟨-, e, -, rfl⟩ | ⟨-, i, -, hdone⟩
    · exact hready
    · simp at hready
    · rcases hdone.status with hs | ⟨hs, -⟩ | ⟨hs, -⟩
      · rwa [← hs]
      · simp [hs] at hready
      · simp [hs] at hready
  · rw [step_idle hidle] at h
    exact (Host.Outcome.next.inj h).symm

/-- Where a step from RUNNING can end, by how its instruction completed. -/
theorem Completes.status_of_running {s t : State} {i : Instr} (h : Completes s i t)
    (hrun : s.status = .running) :
    t.status = .running ∨ (t.status = .halted ∧ i = .halt) ∨ t.status = .awaitingInput := by
  rcases h.status with hs | hhalt | ⟨hs, -⟩
  · exact .inl (hs.trans hrun)
  · exact .inr (.inl hhalt)
  · exact .inr (.inr hs)

/-- A step from RUNNING to FAULTED is fault entry for a kind the realisation has. -/
theorem step_faults {s t : State} (hrun : s.status = .running) (h : step s = .next t)
    (ht : t.status = .faulted) : ∃ e, hasFault s.cfg e.cause = true ∧ t = enterFault e .core s := by
  rcases step_outcome h with ⟨hidle, -⟩ | ⟨-, hfault⟩ | ⟨-, i, -, hdone⟩
  · exact absurd hrun hidle
  · exact hfault
  · rcases hdone.status_of_running hrun with hs | ⟨hs, -⟩ | hs <;> simp [hs] at ht

/-- A step from RUNNING to HALTED has fetched HALT. -/
theorem step_halts {s t : State} (hrun : s.status = .running) (h : step s = .next t)
    (ht : t.status = .halted) : fetchInstr s = .ok .halt := by
  rcases step_outcome h with ⟨hidle, -⟩ | ⟨-, e, -, rfl⟩ | ⟨-, i, hfetch, hdone⟩
  · exact absurd hrun hidle
  · simp at ht
  · rcases hdone.status_of_running hrun with hs | ⟨-, rfl⟩ | hs
    · simp [hs] at ht
    · exact hfetch
    · simp [hs] at ht

theorem writeAddress_of_storeAddress_inp {s : State} {dst : Param} {d : Nat}
    (h : storeAddress (.inp dst) s = some d) :
    writeAddress s (opcodeCell .inp [dst]) dst = .ok d := by
  rcases hd : writeAddress s (opcodeCell .inp [dst]) dst with e | d'
  · simp [storeAddress, writeTarget, Instr.op, Instr.params, hd] at h
  · rw [storeAddress_inp hd] at h
    rw [Option.some.inj h]

/-- Settles O18: each way out of RUNNING is one outcome of the step. -/
theorem statusLeavesRunningOnlyAsTabled : Obligations.StatusLeavesRunningOnlyAsTabled := by
  intro s t hrun h
  refine ⟨⟨step_halts hrun h, fun hfetch => ?_⟩, ⟨fun ht => ?_, ?_⟩, ⟨fun ht => ?_, ?_⟩, fun ht => ?_⟩
  · rw [step_eq_exec hrun hfetch, haltSetsHaltedOnly] at h
    rw [← Host.Outcome.next.inj h]
  · obtain ⟨dst, d, hfetch, hd, hip, hqueue, -⟩ := step_suspends hrun h ht
    exact ⟨hqueue, hip, dst, hfetch, d, storeAddress_inp hd⟩
  · rintro ⟨hqueue, hip, dst, hfetch, d, hd⟩
    have hstep : step s = .next s.suspend := step_completes hrun hfetch
      (inputEffect_ok.2 ⟨d, writeAddress_of_storeAddress_inp hd, hip, .inl ⟨hqueue, rfl⟩⟩)
    rw [Host.Outcome.next.inj (h.symm.trans hstep)]
    exact suspend_status s
  · obtain ⟨e, -, rfl⟩ := step_faults hrun h ht
    exact ⟨e, rfl⟩
  · rintro ⟨e, rfl⟩
    exact enterFault_status s e _
  · obtain ⟨u, hu, -, hready, -⟩ := everyStepAnswersANextState s
    obtain rfl := Host.Outcome.next.inj (h.symm.trans hu)
    simp [hready ht] at hrun

theorem enterFault_of_running {s : State} (hrun : s.status = .running) (e : FaultReport)
    (o : FaultOrigin) :
    enterFault e o s = { s with
      status := .faulted, faultCause := e.cause, faultIp := s.ip, faultInfo := e.info,
      faultOrigin := o } :=
  (faultEntryRecordsTheFirstFault s e o).1 (by simp [hrun])

/-- Settles O33: the step was fault entry, and no realisation has a fault of kind NONE. -/
theorem stepFaultsArePreciseAndAtomic : Obligations.StepFaultsArePreciseAndAtomic := by
  intro s t hrun h ht
  obtain ⟨e, hkind, rfl⟩ := step_faults hrun h ht
  have hcause : e.cause ≠ .none := fun hnone => by simp [hnone, hasFault] at hkind
  rw [enterFault_of_running hrun]
  exact ⟨rfl, rfl, hcause, rfl⟩

/-- Settles O36: the reference hardware has no kind that a finite parameter brings. -/
theorem referenceHardwareRaisesOnlyThreeFaults : Obligations.ReferenceHardwareRaisesOnlyThreeFaults := by
  intro s t hcfg hrun h ht
  obtain ⟨e, hkind, rfl⟩ := step_faults hrun h ht
  rw [enterFault_of_running hrun]
  rw [hcfg] at hkind
  show e.cause.code = 1 ∨ e.cause.code = 2 ∨ e.cause.code = 3
  cases hcause : e.cause with
  | invalidAddress => exact .inl rfl
  | invalidParameterMode => exact .inr (.inl rfl)
  | illegalOpcode => exact .inr (.inr rfl)
  | none | valueOverflow | resourceExhausted => simp [hcause, hasFault, Config.reference] at hkind

theorem step_rb {s t : State} (h : step s = .next t) :
    t.rb = s.rb ∨ ∃ a x, fetchInstr s = .ok (.arb a) ∧ readOperand s a = .ok x ∧ t.rb = s.rb + x := by
  rcases step_outcome h with ⟨-, rfl⟩ | ⟨-, e, -, rfl⟩ | ⟨-, i, hfetch, hdone⟩
  · exact .inl rfl
  · exact .inl (enterFault_rb s e _)
  · refine hdone.rb.imp_right ?_
    rintro ⟨a, x, rfl, hx, hrb⟩
    exact ⟨a, x, hfetch, hx, hrb⟩

/-- Settles O39: no other outcome of a step lowers IP. -/
theorem onlyJumpsMakeIpNegative : Obligations.OnlyJumpsMakeIpNegative := by
  intro s t h hip hneg
  rcases step_outcome h with ⟨-, rfl⟩ | ⟨-, e, -, rfl⟩ | ⟨-, i, hfetch, hdone⟩
  · omega
  · rw [enterFault_ip] at hneg
    omega
  · rcases hdone.ip with hup | ⟨a, target, x, hfires, hx, htarget⟩
    · omega
    · refine ⟨a, target, x, ?_, hx, htarget⟩
      rcases hfires with ⟨rfl, hx⟩ | ⟨rfl, hx⟩
      · exact .inl ⟨hfetch, hx⟩
      · exact .inr ⟨hfetch, hx⟩

/-- A step changes a cell only by completing an instruction whose write target it is. -/
theorem step_changes_cell {s t : State} {a : Nat} (h : step s = .next t)
    (ha : t.mem.read a ≠ s.mem.read a) :
    s.status = .running ∧ t.status = .running ∧
      ∃ i, fetchInstr s = .ok i ∧ storeAddress i s = some a := by
  rcases step_outcome h with ⟨-, rfl⟩ | ⟨-, e, -, rfl⟩ | ⟨hrun, i, hfetch, hdone⟩
  · exact absurd rfl ha
  · exact absurd (by rw [enterFault_mem]) ha
  · have hstore : storeAddress i s = some a := by
      by_contra hother
      exact ha (hdone.read_other hother)
    refine ⟨hrun, ?_, i, hfetch, hstore⟩
    cases hdone with
    | halts | suspends => exact absurd rfl ha
    | _ => exact hrun

end Sys2Proof.Machine
end

