-- ==== Sys2Proof/Proofs/RunsOfSteps.lean ====
section
/-! Runs of any number of steps: what every step keeps, a run and RUN's loop keep, and RUN answers
exactly where a run within its fuel stops (60_exceptions.md R161, R171). -/

namespace Sys2Proof.Machine

/-- What every step keeps, a run keeps. -/
theorem run_preserves {P : State → Prop} (hstep : ∀ s t, P s → step s = .next t → P t) {n : Nat}
    {s t : State} (hs : P s) (h : Host.Core.run Sys2Proof.core n s = .next t) : P t := by
  induction n generalizing s with
  | zero => exact run_zero.1 h ▸ hs
  | succ n ih =>
    obtain ⟨u, hu, hrest⟩ := run_succ.1 h
    exact ih (hstep s u hs hu) hrest

/-- RUN's loop ends in a state exactly when a run within its fuel stops there. -/
theorem runLoop_iff {fuel : Nat} {s t : State} :
    runLoop fuel s = some t ↔
      ∃ n, n ≤ fuel ∧ Host.Core.run Sys2Proof.core n s = .next t ∧ t.status ≠ .running := by
  constructor
  · intro h
    induction fuel generalizing s with
    | zero =>
      by_cases hs : s.status = .running
      · simp [runLoop, hs] at h
      · rw [runLoop_stopped hs] at h
        obtain rfl := Option.some.inj h
        exact ⟨0, le_refl 0, run_zero.2 rfl, hs⟩
    | succ fuel ih =>
      by_cases hs : s.status = .running
      · obtain ⟨u, hu⟩ := step_total s
        rw [runLoop_succ hs hu] at h
        obtain ⟨n, hn, hrun, ht⟩ := ih h
        exact ⟨n + 1, Nat.succ_le_succ hn, run_succ.2 ⟨u, hu, hrun⟩, ht⟩
      · rw [runLoop_stopped hs] at h
        obtain rfl := Option.some.inj h
        exact ⟨0, Nat.zero_le _, run_zero.2 rfl, hs⟩
  · rintro ⟨n, hn, hrun, ht⟩
    induction n generalizing s fuel with
    | zero =>
      obtain rfl := run_zero.1 hrun
      exact runLoop_stopped ht
    | succ n ih =>
      by_cases hs : s.status = .running
      · obtain ⟨fuel, rfl⟩ := Nat.exists_eq_succ_of_ne_zero (Nat.ne_zero_of_lt hn)
        obtain ⟨u, hu, hrest⟩ := run_succ.1 hrun
        rw [runLoop_succ hs hu]
        exact ih (Nat.le_of_succ_le_succ hn) hrest
      · obtain rfl := run_idle hs hrun
        exact runLoop_stopped ht

/-- What every step keeps, RUN's loop keeps. -/
theorem runLoop_preserves {P : State → Prop} (hstep : ∀ s t, P s → step s = .next t → P t)
    {fuel : Nat} {s t : State} (hs : P s) (h : runLoop fuel s = some t) : P t := by
  obtain ⟨n, -, hrun, -⟩ := runLoop_iff.1 h
  exact run_preserves hstep hs hrun

/-- RUN's answer says where the core stopped. -/
theorem runAnswer_some {u t : State} {r : Response} (h : runAnswer u = some (r, t)) :
    u = t ∧ ((t.status = .awaitingInput ∧ r = .run .awaitingInput) ∨
      (t.status = .halted ∧ r = .run .halted) ∨
      (t.status = .faulted ∧
        r = .run (.faulted t.faultCause t.faultIp t.faultInfo t.faultOrigin))) := by
  obtain ⟨result, hresult, hpair⟩ := Option.map_eq_some_iff.1 h
  obtain ⟨rfl, rfl⟩ := Prod.mk.inj hpair
  refine ⟨rfl, ?_⟩
  cases hs : u.status <;> simp [runResult, hs] at hresult <;> simp [hresult]

theorem runAnswer_of_awaitingInput {t : State} (h : t.status = .awaitingInput) :
    runAnswer t = some (.run .awaitingInput, t) := by simp [runAnswer, runResult, h]

theorem runAnswer_of_halted {t : State} (h : t.status = .halted) :
    runAnswer t = some (.run .halted, t) := by simp [runAnswer, runResult, h]

theorem runAnswer_of_faulted {t : State} (h : t.status = .faulted) :
    runAnswer t = some (.run (.faulted t.faultCause t.faultIp t.faultInfo t.faultOrigin), t) := by
  simp [runAnswer, runResult, h]

/-- A RUN that answers answers for the state it leaves. -/
theorem command_run_answer {fuel : Nat} {s t : State} {r : Response}
    (h : command fuel .run s = some (r, t)) : runAnswer t = some (r, t) := by
  have hself : ∀ {u}, runAnswer u = some (r, t) → runAnswer t = some (r, t) := fun hu =>
    (runAnswer_some hu).1 ▸ hu
  cases hs : s.status with
  | ready | awaitingInput =>
    rw [command_run_of_waiting fuel (by simp [hs])] at h
    obtain ⟨u, -, hu⟩ := Option.bind_eq_some_iff.1 h
    exact hself hu
  | running => simp [command_of_running fuel .run hs] at h
  | halted | faulted =>
    rw [command_run_of_terminal fuel (by simp [hs])] at h
    exact hself h

/-- No number of steps from RUNNING ends in READY. -/
theorem run_not_ready {n : Nat} {s t : State} (hs : s.status ≠ .ready)
    (h : Host.Core.run Sys2Proof.core n s = .next t) : t.status ≠ .ready := by
  refine run_preserves (P := fun u => u.status ≠ .ready) (fun u v hu huv hready => hu ?_) hs h
  obtain ⟨w, hw, -, hback, -⟩ := everyStepAnswersANextState u
  obtain rfl := Host.Outcome.next.inj (huv.symm.trans hw)
  exact hback hready

/-- Settles O52: RUN's loop stops exactly where a run within its fuel does, and never in READY. -/
theorem runReturnsWhereTheCoreStopped : Obligations.RunReturnsWhereTheCoreStopped := by
  intro s fuel
  refine ⟨fun hrun c => command_of_running fuel c hrun, fun hs => ?_, fun hs => ?_,
    fun r t h => (runAnswer_some (command_run_answer h)).2, fun r t hwait h => ?_,
    fun n t hwait hn hrun ht => ?_⟩
  · rw [command_run_of_terminal fuel (.inl hs), runAnswer_of_halted hs]
  · rw [command_run_of_terminal fuel (.inr hs), runAnswer_of_faulted hs]
  · rw [command_run_of_waiting fuel hwait] at h
    obtain ⟨u, hloop, hu⟩ := Option.bind_eq_some_iff.1 h
    obtain ⟨rfl, -⟩ := runAnswer_some hu
    obtain ⟨n, hn, hrun, -⟩ := runLoop_iff.1 hloop
    exact ⟨n, hn, hrun⟩
  · have hloop : runLoop fuel (s.setStatus .running) = some t := runLoop_iff.2 ⟨n, hn, hrun, ht⟩
    have hanswer : command fuel .run s = runAnswer t := by
      rw [command_run_of_waiting fuel hwait, hloop, Option.bind_some]
    cases hs : t.status with
    | ready => exact absurd hs (run_not_ready (by simp) hrun)
    | running => exact absurd hs ht
    | awaitingInput => exact .inl ⟨rfl, hanswer.trans (runAnswer_of_awaitingInput hs)⟩
    | halted => exact .inr (.inl ⟨rfl, hanswer.trans (runAnswer_of_halted hs)⟩)
    | faulted => exact .inr (.inr ⟨rfl, hanswer.trans (runAnswer_of_faulted hs)⟩)

end Sys2Proof.Machine
end

