-- ==== Sys2Proof/Proofs/CommandEffects.lean ====
section
/-! What each host command does and leaves alone (60_exceptions.md R159 to R166; 70_reset_and_hazards.md
R180), and what no command and no step changes. -/

namespace Sys2Proof.Machine

/-! ### Each command on an idle core -/

section Idle

variable {s : State} (fuel : Nat) (hidle : s.status ≠ .running)
include hidle

theorem command_load (p : List Int) : command fuel (.load p) s = some (hostLoad p s) := if_neg hidle
theorem command_feed (v : Int) : command fuel (.feed v) s = some (hostFeed v s) := if_neg hidle
theorem command_take (clear : Bool) : command fuel (.take clear) s = some (hostTake clear s) :=
  if_neg hidle
theorem command_peek (a : Int) : command fuel (.peek a) s = some (hostPeek a s) := if_neg hidle
theorem command_poke (a v : Int) : command fuel (.poke a v) s = some (hostPoke a v s) := if_neg hidle

end Idle

theorem hostLoad_refused {s : State} {p : List Int}
    (h : (∃ v ∈ p, s.cfg.fits v = false) ∨
      ∃ limit, s.cfg.addrLimit = some limit ∧ limit < p.length) :
    hostLoad p s = (.refused, s) := by
  refine if_neg fun hok => ?_
  obtain ⟨hfits, hholds⟩ := Bool.and_eq_true_iff.1 hok
  rcases h with ⟨v, hv, hover⟩ | ⟨limit, hlimit, hlong⟩
  · simp [List.all_eq_true.1 hfits v hv] at hover
  · exact hlong.not_ge (Config.holdsProgram_iff.1 hholds limit hlimit)

/-- Settles O48: an accepted LOAD leaves the state that `State.loaded` names, whose memory holds the
program from address 0 on. -/
theorem loadSetsEveryPieceOfState : Obligations.LoadSetsEveryPieceOfState := by
  intro s p fuel hidle
  refine ⟨fun hfits hlimit => ⟨_, command_load_accepted fuel hidle hfits hlimit,
    Memory.ofCells_wf 0 p, fun a ha => ?_, fun a ha => ?_, rfl, rfl, rfl, ⟨rfl, rfl, rfl, rfl⟩,
    rfl, rfl, rfl, rfl⟩, fun h => ?_⟩
  · have hread := Memory.read_ofCells p 0 a
    rwa [Nat.zero_add, List.getD_eq_getElem p 0 ha] at hread
  · have hread := Memory.read_ofCells p 0 a
    rwa [Nat.zero_add, List.getD_eq_default p 0 ha] at hread
  · rw [command_load fuel hidle, hostLoad_refused h]

/-- Settles O49: FEED's two checks. -/
theorem feedAppendsAtTheTail : Obligations.FeedAppendsAtTheTail := by
  intro s v fuel hidle
  rw [command_feed fuel hidle, hostFeed]
  refine ⟨fun hfits hdepth => ?_, fun h => ?_⟩
  · simp only [Config.not_full_iff.2 hdepth, hfits]
    rfl
  · rcases h with hover | hfull
    · simp [hover]
    · simp [Config.full_iff.2 hfull]

/-- Settles O50: TAKE's answer and cursor, and nothing left past the log's end. -/
theorem takeReturnsTheUntakenOutputs : Obligations.TakeReturnsTheUntakenOutputs := by
  intro s fuel hidle
  have hidle' : ({ s with outCur := s.outLog.length } : State).status ≠ .running := hidle
  refine ⟨command_take fuel hidle false, command_take fuel hidle true, ?_⟩
  rw [command_take fuel hidle' true]
  simp [hostTake]

section Pokes

variable {s : State} {a v : Int}

theorem hostPeek_error {e : FaultReport} (h : checkAddress s.cfg a = .error e) :
    hostPeek a s = (.fault e.cause, enterFault e .host s) := by simp [hostPeek, h]

theorem hostPeek_ok {n : Nat} (h : checkAddress s.cfg a = .ok n) :
    hostPeek a s = (.value (s.mem.read n), s) := by simp [hostPeek, h]

theorem hostPoke_error {e : FaultReport} (h : checkAddress s.cfg a = .error e) :
    hostPoke a v s = (.fault e.cause, enterFault e .host s) := by simp [hostPoke, h]

theorem hostPoke_ok {n : Nat} (h : checkAddress s.cfg a = .ok n) :
    hostPoke a v s = if s.cfg.fits v then (.ok, s.store n v) else (.refused, s) := by
  simp [hostPoke, h]

/-- A POKE that is accepted has stored its value at a checked address. -/
theorem hostPoke_accepted {t : State} (h : hostPoke a v s = (.ok, t)) :
    ∃ n, checkAddress s.cfg a = .ok n ∧ t = s.store n v := by
  rcases hcheck : checkAddress s.cfg a with e | n
  · simp [hostPoke_error hcheck] at h
  · rw [hostPoke_ok hcheck] at h
    split at h
    · exact ⟨n, rfl, (Prod.mk.inj h).2.symm⟩
    · simp at h

end Pokes

/-- Settles O51: the address checks decide between the fault and the cell. -/
theorem peekAndPokeReachOneCell : Obligations.PeekAndPokeReachOneCell := by
  intro s a v fuel hidle hwf
  rw [command_peek fuel hidle, command_poke fuel hidle]
  refine ⟨fun hneg => ?_, fun h hout => ?_, fun h hin => ?_⟩
  · have hcheck := checkAddress_of_negative s.cfg hneg
    rw [hostPeek_error hcheck, hostPoke_error hcheck]
    exact ⟨rfl, rfl⟩
  · have hcheck := checkAddress_of_shut_out h hout
    rw [hostPeek_error hcheck, hostPoke_error hcheck]
    exact ⟨rfl, rfl⟩
  · have hcheck := checkAddress_of_inRange h hin
    rw [hostPeek_ok hcheck, hostPoke_ok hcheck]
    refine ⟨rfl, fun hover => by simp [hover], fun hfits => ⟨s.store a.toNat v, by simp [hfits], ?_⟩⟩
    exact ⟨Memory.read_write_same hwf _ v, fun b hb => Memory.read_write_other v hb, rfl⟩

/-! ### What commands leave alone -/

/-- Settles O37: no other command writes STATUS or the record of a FAULTED core. -/
theorem faultedIsLeftOnlyByLoad : Obligations.FaultedIsLeftOnlyByLoad := by
  intro s t fuel c r hs hload h
  have hkept : t.status = .faulted ∧ sameRecord s t := by
    rcases (command_cases h).2 with ⟨p, hc, -⟩ | ⟨_, -, rfl | ⟨-, -, rfl⟩⟩ | ⟨-, rfl | ⟨hwait, -⟩⟩ |
      ⟨_, -, rfl | rfl⟩ | ⟨-, rfl⟩ | ⟨-, e, -, rfl⟩ | ⟨_, _, -, rfl | ⟨_, -, -, rfl⟩⟩
    any_goals exact ⟨hs, rfl, rfl, rfl, rfl⟩
    · exact absurd hc (hload p)
    · simp [hs] at hwait
    · rw [enterFault_of_faulted s e _ hs]
      exact ⟨hs, rfl, rfl, rfl, rfl⟩
  refine ⟨hkept.1, hkept.2, ?_⟩
  rintro rfl
  rw [command_run_of_terminal fuel (.inr hs), runAnswer_of_faulted hs] at h
  obtain ⟨hr, ht⟩ := Prod.mk.inj (Option.some.inj h)
  exact ⟨ht.symm, hr.symm⟩

/-- Settles O38: a step by its own rule for RB, and a command that neither loads nor runs leaves RB. -/
theorem onlyAdjustAndLoadChangeRelativeBase : Obligations.OnlyAdjustAndLoadChangeRelativeBase := by
  refine ⟨fun s t h hrb => (step_rb h).resolve_left hrb, fun s t fuel c r h hrb => ?_⟩
  by_contra hother
  obtain ⟨hload, hrun⟩ := not_or.1 hother
  obtain ⟨-, hsame, -⟩ := command_that_does_not_wake h (not_exists.1 hload) (.inl hrun)
  exact hrb hsame

/-- Settles O40: a step by its own rule for cells, a command by its cases. -/
theorem onlyWriteTargetsChangeMemory : Obligations.OnlyWriteTargetsChangeMemory := by
  refine ⟨fun s t a h ha => step_changes_cell h ha, fun s t fuel c r a h ha => ?_⟩
  rcases (command_cases h).2 with ⟨p, hc, -⟩ | ⟨_, -, rfl | ⟨-, -, rfl⟩⟩ | ⟨hc, -⟩ |
    ⟨_, -, rfl | rfl⟩ | ⟨-, rfl⟩ | ⟨-, e, -, rfl⟩ | ⟨b, v, hc, rfl | ⟨n, hcheck, -, rfl⟩⟩
  any_goals exact absurd rfl ha
  · exact .inl ⟨p, hc⟩
  · exact .inr (.inl hc)
  · exact absurd (by rw [enterFault_mem]) ha
  · obtain ⟨hb, rfl, -⟩ := checkAddress_ok.1 hcheck
    have hcell : a = b.toNat := by
      by_contra hother
      exact ha (Memory.read_write_other v hother)
    rw [hcell, Int.toNat_of_nonneg hb]
    exact .inr (.inr ⟨v, hc⟩)

/-- Settles O55: a step by its own rule, RUN by its steps, and no other command names the parameters. -/
theorem configurationIsConstant : Obligations.ConfigurationIsConstant := by
  refine ⟨fun s t h => step_cfg h, fun s t fuel c r h => ?_⟩
  rcases (command_cases h).2 with ⟨_, -, rfl | ⟨-, -, rfl⟩⟩ | ⟨_, -, rfl | ⟨-, -, rfl⟩⟩ |
    ⟨-, rfl | ⟨-, hloop⟩⟩ | ⟨_, -, rfl | rfl⟩ | ⟨-, rfl⟩ | ⟨-, e, -, rfl⟩ |
    ⟨_, _, -, rfl | ⟨_, -, -, rfl⟩⟩
  any_goals rfl
  · exact runLoop_preserves (P := fun u => u.cfg = s.cfg)
      (fun u v hu huv => (step_cfg huv).trans hu) (setStatus_cfg s _) hloop
  · exact enterFault_cfg s e _

end Sys2Proof.Machine
end

