-- ==== Sys2Proof/Proofs/ChannelOrder.lean ====
section
/-! The channel's guarantees (41_io.md R112) and the coherence of fetches with earlier writes
(20_memory.md R62). -/

namespace Sys2Proof.Machine

/-! ### Fetches and writes -/

/-- An instruction with a write target that completes stores the value of its own rule there, unless it
suspends. -/
theorem Completes.stored {s t : State} {i : Instr} {d : Nat} (h : Completes s i t)
    (hd : storeAddress i s = some d) (ht : t.status = .running) :
    ∃ v, storedValue i s = some v ∧ t.mem = s.mem.write d v := by
  cases h with
  | stores _ haddr hvalue _ _ =>
    obtain rfl := Option.some.inj (haddr.symm.trans hd)
    exact ⟨_, hvalue, rfl⟩
  | inputs haddr hqueue _ =>
    obtain rfl := Option.some.inj (haddr.symm.trans hd)
    exact ⟨_, by rw [storedValue, hqueue]; rfl, rfl⟩
  | suspends => simp at ht
  | outputs | adjusts | halts => cases hd
  | jumps hfires _ _ => rcases hfires with ⟨rfl, -⟩ | ⟨rfl, -⟩ <;> cases hd
  | passes hjump _ => rcases hjump with rfl | rfl <;> cases hd

/-- A step that stays RUNNING has completed the instruction it fetched. -/
theorem step_stays_running {s t : State} {i : Instr} (hrun : s.status = .running)
    (h : step s = .next t) (hfetch : fetchInstr s = .ok i) (ht : t.status = .running) :
    Completes s i t := by
  rcases step_outcome h with ⟨hidle, -⟩ | ⟨-, e, -, rfl⟩ | ⟨-, j, hj, hdone⟩
  · exact absurd hrun hidle
  · simp at ht
  · rwa [Except.ok.inj (hfetch.symm.trans hj)]

/-- Settles O3: memory after the step, or the POKE, is memory before it with the one cell written. -/
theorem fetchSeesEveryEarlierWrite : Obligations.FetchSeesEveryEarlierWrite := by
  intro s hwf
  refine ⟨fun t i d hrun h hfetch hd ht => ?_, fun fuel a v t h => ?_⟩
  · obtain ⟨v, hvalue, hmem⟩ := (step_stays_running hrun h hfetch ht).stored hd ht
    have hread : memRead t d = .ok v := by
      rw [memRead_natCast (step_cfg h ▸ storeAddress_inRange hd), hmem,
        Memory.read_write_same hwf]
    refine ⟨v, hvalue, hread, fun b hb => ?_, fun hip => by rw [hip, hread]⟩
    rw [hmem, Memory.read_write_other v hb]
  · rw [command_poke fuel (command_cases h).1] at h
    obtain ⟨n, hcheck, rfl⟩ := hostPoke_accepted (Option.some.inj h)
    have hread : memRead (s.store n v) a = .ok v :=
      memRead_ok.2 ⟨n, hcheck, (Memory.read_write_same hwf n v).symm⟩
    exact ⟨hread, fun hip => by rw [hip, hread], rfl⟩

/-! ### The channel -/

theorem Completes.out_appends {s t : State} {a : Param} (h : Completes s (.out a) t) :
    ∃ x, t.outLog = s.outLog ++ [x] := by
  cases h with
  | stores _ haddr _ _ _ => cases haddr
  | outputs => exact ⟨_, rfl⟩
  | jumps hfires _ _ => simp at hfires
  | passes hjump _ => simp at hjump

theorem Completes.inp_consumes {s t : State} {dst : Param} (h : Completes s (.inp dst) t)
    (ht : t.status ≠ .awaitingInput) : ∃ v, s.inQ = v :: t.inQ := by
  cases h with
  | stores hinp _ _ _ _ => exact absurd rfl (hinp dst)
  | inputs _ hqueue _ => exact ⟨_, hqueue⟩
  | suspends => simp at ht
  | jumps hfires _ _ => simp at hfires
  | passes hjump _ => simp at hjump

theorem step_outLog {s t : State} (h : step s = .next t) :
    t.outLog = s.outLog ∨ ∃ a x, s.status = .running ∧ fetchInstr s = .ok (.out a) ∧
      readOperand s a = .ok x ∧ t.outLog = s.outLog ++ [x] := by
  rcases step_outcome h with ⟨-, rfl⟩ | ⟨-, e, -, rfl⟩ | ⟨hrun, i, hfetch, hdone⟩
  · exact .inl rfl
  · exact .inl (enterFault_outLog s e _)
  · refine hdone.outLog.imp_right ?_
    rintro ⟨a, x, rfl, hx, hlog⟩
    exact ⟨a, x, hrun, hfetch, hx, hlog⟩

theorem step_inQ {s t : State} (h : step s = .next t) :
    t.inQ = s.inQ ∨ ∃ dst v, s.status = .running ∧ fetchInstr s = .ok (.inp dst) ∧
      s.inQ = v :: t.inQ := by
  rcases step_outcome h with ⟨-, rfl⟩ | ⟨-, e, -, rfl⟩ | ⟨hrun, i, hfetch, hdone⟩
  · exact .inl rfl
  · exact .inl (enterFault_inQ s e _)
  · refine hdone.inQ.imp_right ?_
    rintro ⟨dst, v, rfl, hqueue⟩
    exact ⟨dst, v, hrun, hfetch, hqueue⟩

theorem step_outCur {s t : State} (h : step s = .next t) : t.outCur = s.outCur := by
  rcases step_outcome h with ⟨-, rfl⟩ | ⟨-, e, -, rfl⟩ | ⟨-, i, -, hdone⟩
  · rfl
  · exact enterFault_outCur s e _
  · exact hdone.outCur

/-- A step that suspends or faults takes nothing from the queue. -/
theorem step_stopped_inQ {s t : State} (h : step s = .next t)
    (ht : t.status = .awaitingInput ∨ t.status = .faulted) : t.inQ = s.inQ := by
  by_cases hrun : s.status = .running
  · rcases ht with ht | ht
    · obtain ⟨_, _, -, -, -, -, rfl⟩ := step_suspends hrun h ht
      exact suspend_inQ s
    · obtain ⟨e, -, rfl⟩ := step_faults hrun h ht
      exact enterFault_inQ s e _
  · rw [step_idle hrun] at h
    rw [Host.Outcome.next.inj h]

/-- `t` comes after `s`: its log has grown at the end, its queue has lost a head, the cursor stands. -/
def ChannelAfter (s t : State) : Prop :=
  ∃ produced consumed, t.outLog = s.outLog ++ produced ∧ s.inQ = consumed ++ t.inQ ∧
    t.outCur = s.outCur

theorem ChannelAfter.step {s u t : State} (hu : ChannelAfter s u) (h : step u = .next t) :
    ChannelAfter s t := by
  obtain ⟨produced, consumed, hlog, hqueue, hcur⟩ := hu
  have hgrows : ∃ more, t.outLog = u.outLog ++ more := by
    rcases step_outLog h with hsame | ⟨_, x, -, -, -, happend⟩
    · exact ⟨[], by simp [hsame]⟩
    · exact ⟨[x], happend⟩
  have hshrinks : ∃ more, u.inQ = more ++ t.inQ := by
    rcases step_inQ h with hsame | ⟨_, v, -, -, hhead⟩
    · exact ⟨[], by simp [hsame]⟩
    · exact ⟨[v], hhead⟩
  obtain ⟨newOut, hnewOut⟩ := hgrows
  obtain ⟨newIn, hnewIn⟩ := hshrinks
  exact ⟨produced ++ newOut, consumed ++ newIn, by simp [hnewOut, hlog], by simp [hqueue, hnewIn],
    (step_outCur h).trans hcur⟩

theorem run_channelAfter {n : Nat} {s t : State} (h : Host.Core.run Sys2Proof.core n s = .next t) :
    ChannelAfter s t :=
  run_preserves (P := ChannelAfter s) (fun _ _ => ChannelAfter.step)
    ⟨[], [], by simp, by simp, rfl⟩ h

/-- Settles O41: the step's rules for the log and the queue, the run's by induction, and the two
commands at the channel's ends. -/
theorem channelLosesAndReordersNothing : Obligations.ChannelLosesAndReordersNothing := by
  refine ⟨fun s t h => ⟨step_outLog h, step_inQ h, fun a hrun ht hfetch => ?_,
    fun dst hrun ht hfetch => ?_, step_stopped_inQ h⟩, fun n s t h => run_channelAfter h,
    fun s t fuel v h => ?_, fun s t fuel vs hcur h => ?_⟩
  · exact (step_stays_running hrun h hfetch ht).out_appends
  · exact (step_stays_running hrun h hfetch ht).inp_consumes (by simp [ht])
  · rw [command_feed fuel (command_cases h).1] at h
    obtain ⟨⟨⟩, -⟩ | ⟨-, rfl⟩ := hostFeed_cases (Option.some.inj h)
    exact setInQ_inQ s _
  · rw [command_take fuel (command_cases h).1] at h
    obtain ⟨hvs, ht⟩ := Prod.mk.inj (Option.some.inj h)
    obtain rfl := Response.outputs.inj hvs
    obtain rfl : ({ s with outCur := s.outLog.length } : State) = t := ht
    exact ⟨(List.take_append_drop s.outCur s.outLog).symm, rfl, rfl⟩

end Sys2Proof.Machine
end

