-- ==== Sys2Proof/Proofs/ChannelNoninterference.lean ====
section
/-! What stands in the channel beyond what a run needs does not affect the run: the output log with its
cursor (10_state.md R31) and inputs at the tail of the queue (41_io.md R112). Both are changes of the
state that commute with every step. -/

namespace Sys2Proof.Machine

/-! Operand resolution looks at the realisation, memory and RB alone. -/

section Congruence

variable {s u : State} (hcfg : u.cfg = s.cfg) (hmem : u.mem = s.mem) (hrb : u.rb = s.rb)
include hcfg hrb

theorem writeAddress_congr (c : Int) (p : Param) : writeAddress u c p = writeAddress s c p := by
  simp only [writeAddress, relativeAddress, hcfg, hrb]

include hmem

theorem readOperand_congr (p : Param) : readOperand u p = readOperand s p := by
  simp only [readOperand, relativeAddress, memRead, hcfg, hmem, hrb]

theorem readTwo_congr (a b : Param) : readTwo u a b = readTwo s a b := by
  simp only [readTwo, readOperand_congr hcfg hmem hrb]

theorem readTwoAndTarget_congr (c : Int) (a b dst : Param) :
    readTwoAndTarget u c a b dst = readTwoAndTarget s c a b dst := by
  simp only [readTwoAndTarget, readTwo_congr hcfg hmem hrb, writeAddress_congr hcfg hrb]

end Congruence

/-! ### Changes of the state that no other instruction than IN and OUT can see -/

/-- A change of the state that keeps what instructions other than IN and OUT read, and commutes with
what they write. -/
structure Transparent (g : State → State) : Prop where
  cfg : ∀ s, (g s).cfg = s.cfg
  mem : ∀ s, (g s).mem = s.mem
  ip : ∀ s, (g s).ip = s.ip
  rb : ∀ s, (g s).rb = s.rb
  status : ∀ s, (g s).status = s.status
  store : ∀ s a v, g (s.store a v) = (g s).store a v
  setIp : ∀ s v, g (s.setIp v) = (g s).setIp v
  setRb : ∀ s v, g (s.setRb v) = (g s).setRb v
  setStatus : ∀ s v, g (s.setStatus v) = (g s).setStatus v
  enterFault : ∀ s e o, g (enterFault e o s) = Machine.enterFault e o (g s)

namespace Transparent

variable {g : State → State} (hg : Transparent g) (s : State)
include hg

theorem readOperand_eq (p : Param) : readOperand (g s) p = readOperand s p :=
  readOperand_congr (hg.cfg s) (hg.mem s) (hg.rb s) p

theorem writeAddress_eq (c : Int) (p : Param) : writeAddress (g s) c p = writeAddress s c p :=
  writeAddress_congr (hg.cfg s) (hg.rb s) c p

theorem advancedIp_eq (w : Nat) : advancedIp (g s) w = advancedIp s w := by
  simp only [advancedIp, hg.cfg, hg.ip]

theorem fetchInstr_eq : fetchInstr (g s) = fetchInstr s :=
  fetchInstr_congr (hg.cfg s) (hg.mem s) (hg.ip s)

theorem storeResult_map (op : BaseOp) (f : Int → Int → Except FaultReport Int) (a b dst : Param) :
    storeResult op f a b dst (g s) = (storeResult op f a b dst s).map g := by
  unfold storeResult
  rw [readTwoAndTarget_congr (hg.cfg s) (hg.mem s) (hg.rb s), hg.advancedIp_eq]
  rcases readTwoAndTarget s (opcodeCell op [a, b, dst]) a b dst with e | ⟨x, y, d⟩
  · rfl
  · rcases hr : f x y with e | r
    · simp only [hr]
      rfl
    · rcases advancedIp s op.width with e | ip <;> simp only [hr]
      · rfl
      · simp only [Except.map, hg.setIp, hg.store]

theorem conditionalJump_map (op : BaseOp) (fires : Int → Bool) (a t : Param) :
    conditionalJump op fires a t (g s) = (conditionalJump op fires a t s).map g := by
  unfold conditionalJump
  rw [readTwo_congr (hg.cfg s) (hg.mem s) (hg.rb s), hg.advancedIp_eq]
  rcases readTwo s a t with e | ⟨x, y⟩
  · rfl
  · by_cases hx : fires x = true
    · simp only [if_pos hx, Except.map, hg.setIp]
    · rcases advancedIp s op.width with e | ip <;>
        simp only [if_neg hx, Except.map, hg.setIp]

theorem adjustEffect_map (a : Param) :
    adjustEffect a (g s) = (adjustEffect a s).map g := by
  unfold adjustEffect
  rw [hg.readOperand_eq, hg.advancedIp_eq, hg.cfg, hg.rb]
  rcases readOperand s a with e | x
  · rfl
  · rcases hr : checkFits s.cfg (s.rb + x) with e | rb
    · simp only [hr]
      rfl
    · rcases advancedIp s BaseOp.arb.width with e | ip <;> simp only [hr]
      · rfl
      · simp only [Except.map, hg.setIp, hg.setRb]

/-- An effect of any instruction but IN and OUT does not see the change. -/
theorem effectOf_map {i : Instr} (hinp : ∀ dst, i ≠ .inp dst) (hout : ∀ a, i ≠ .out a) :
    effectOf i (g s) = (effectOf i s).map g := by
  cases i with
  | add a b dst | mul a b dst | lt a b dst | eq a b dst =>
    simp only [effectOf_add, effectOf_mul, effectOf_lt, effectOf_eq, hg.cfg, hg.storeResult_map]
  | inp dst => exact absurd rfl (hinp dst)
  | out a => exact absurd rfl (hout a)
  | jt a t => exact hg.conditionalJump_map s _ _ a t
  | jf a t => exact hg.conditionalJump_map s _ _ a t
  | arb a => exact hg.adjustEffect_map s a
  | halt => exact congrArg Except.ok (hg.setStatus s .halted).symm

variable {s} {t : State}

/-- A step commutes with the change when the fetched instruction's effect does. -/
theorem step_commutes
    (heffect : ∀ i, fetchInstr s = .ok i →
      (effectOf i s = .ok t → effectOf i (g s) = .ok (g t)) ∧
      ∀ e, effectOf i s = .error e → effectOf i (g s) = .error e)
    (h : step s = .next t) : step (g s) = .next (g t) := by
  rcases step_cases.1 h with ⟨hidle, rfl⟩ | ⟨hrun, e, hfetch, rfl⟩ | ⟨hrun, i, hfetch, hexec⟩
  · exact step_idle (by rwa [hg.status])
  · rw [hg.enterFault]
    exact step_of_fetch_error ((hg.status s).trans hrun) ((hg.fetchInstr_eq s).trans hfetch)
  · have hrun' := (hg.status s).trans hrun
    have hfetch' := (hg.fetchInstr_eq s).trans hfetch
    rcases exec_cases.1 hexec with hok | ⟨e, herror, rfl⟩
    · exact step_completes hrun' hfetch' ((heffect i hfetch).1 hok)
    · rw [step_eq_exec hrun' hfetch', exec_of_error ((heffect i hfetch).2 e herror), hg.enterFault]

end Transparent

/-- An effect that commutes with a change does so when it succeeds and when it fails. -/
theorem map_cases {g : State → State} {x y : Except FaultReport State} (h : y = x.map g) {t : State} :
    (x = .ok t → y = .ok (g t)) ∧ ∀ e, x = .error e → y = .error e := by
  subst h
  exact ⟨fun hx => by rw [hx]; rfl, fun e hx => by rw [hx]; rfl⟩

/-! ### The output log and its cursor -/

/-- The state with `log` in the place of the first `n` entries of the output log, and with this cursor. -/
def relog (n : Nat) (log : List Int) (cur : Nat) (s : State) : State :=
  { s with outLog := log ++ s.outLog.drop n, outCur := cur }

theorem relog_transparent (n : Nat) (log : List Int) (cur : Nat) : Transparent (relog n log cur) where
  cfg _ := rfl
  mem _ := rfl
  ip _ := rfl
  rb _ := rfl
  status _ := rfl
  store _ _ _ := rfl
  setIp _ _ := rfl
  setRb _ _ := rfl
  setStatus _ _ := rfl
  enterFault s e o := by
    by_cases h : s.status = .faulted
    · rw [enterFault_of_faulted s e o h, enterFault_of_faulted (relog n log cur s) e o h]
    · simp only [enterFault, h, if_false, relog]

/-- IN looks at the queue, not at the log. -/
theorem inputEffect_relog (n : Nat) (log : List Int) (cur : Nat) (dst : Param) (s : State) :
    inputEffect dst (relog n log cur s) = (inputEffect dst s).map (relog n log cur) := by
  have hg := relog_transparent n log cur
  unfold inputEffect
  rw [hg.writeAddress_eq, hg.advancedIp_eq]
  rcases writeAddress s (opcodeCell .inp [dst]) dst with e | d
  · rfl
  · rcases advancedIp s BaseOp.inp.width with e | ip
    · rfl
    · have hqueue : (relog n log cur s).inQ = s.inQ := rfl
      simp only [hqueue]
      rcases s.inQ with _ | ⟨v, rest⟩ <;> rfl

/-- Where the log is unbounded, OUT appends whatever stands in it. -/
theorem outputEffect_relog {n : Nat} {s : State} (hdepth : s.cfg.outDepth = none)
    (hn : n ≤ s.outLog.length) (log : List Int) (cur : Nat) (a : Param) :
    outputEffect a (relog n log cur s) = (outputEffect a s).map (relog n log cur) := by
  have hg := relog_transparent n log cur
  have hspace : ∀ (u : State) x, u.cfg.outDepth = none → checkOutSpace u x = .ok () := fun u x hu =>
    checkOutSpace_ok.2 (Config.not_full_iff.2 fun d hd => by simp [hu] at hd)
  unfold outputEffect
  rw [hg.readOperand_eq, hg.advancedIp_eq]
  rcases readOperand s a with e | x
  · rfl
  · simp only [hspace _ x hdepth, hspace (relog n log cur s) x hdepth]
    rcases advancedIp s BaseOp.out.width with e | ip
    · rfl
    · have hlog : log ++ (s.outLog ++ [x]).drop n = log ++ s.outLog.drop n ++ [x] := by
        rw [List.drop_append_of_le_length hn, List.append_assoc]
      simp only [Except.map, relog, State.pushOut, State.setIp, hlog]

theorem step_relog {n : Nat} {s t : State} (hdepth : s.cfg.outDepth = none)
    (hn : n ≤ s.outLog.length) (log : List Int) (cur : Nat) (h : step s = .next t) :
    step (relog n log cur s) = .next (relog n log cur t) := by
  have hg := relog_transparent n log cur
  refine hg.step_commutes (fun i _ => ?_) h
  cases i with
  | inp dst => exact map_cases (inputEffect_relog n log cur dst s)
  | out a => exact map_cases (outputEffect_relog hdepth hn log cur a)
  | _ => exact map_cases (hg.effectOf_map s (by simp) (by simp))

theorem run_relog {n k : Nat} {s t : State} (hdepth : s.cfg.outDepth = none)
    (hn : n ≤ s.outLog.length) (log : List Int) (cur : Nat)
    (h : Host.Core.run Sys2Proof.core k s = .next t) :
    Host.Core.run Sys2Proof.core k (relog n log cur s) = .next (relog n log cur t) := by
  induction k generalizing s with
  | zero => rw [run_zero.1 h]; rfl
  | succ k ih =>
    obtain ⟨u, hu, hrest⟩ := run_succ.1 h
    have hgrows : n ≤ u.outLog.length := by
      rcases step_outLog hu with hsame | ⟨_, x, -, -, -, happend⟩
      · rwa [hsame]
      · simp only [happend, List.length_append]
        omega
    have hrest' := ih (by rwa [step_cfg hu]) hgrows hrest
    exact run_succ.2 ⟨_, step_relog hdepth hn log cur hu, hrest'⟩

/-- Settles O42: the log's entries from before the run are replaced, and those it appends stay. -/
theorem outputLogNeverAffectsExecution : Obligations.OutputLogNeverAffectsExecution := by
  intro n s t hdepth h
  obtain ⟨produced, -, hlog, -, -⟩ := run_channelAfter h
  refine ⟨produced, hlog, fun log cur => ?_⟩
  have hrun := run_relog hdepth (le_refl s.outLog.length) log cur h
  simpa only [relog, hlog, List.drop_length, List.append_nil, List.drop_left] using hrun

/-! ### Inputs at the tail of the queue -/

/-- The state with these values at the tail of the input queue. -/
def feedTail (more : List Int) (s : State) : State := { s with inQ := s.inQ ++ more }

theorem feedTail_transparent (more : List Int) : Transparent (feedTail more) where
  cfg _ := rfl
  mem _ := rfl
  ip _ := rfl
  rb _ := rfl
  status _ := rfl
  store _ _ _ := rfl
  setIp _ _ := rfl
  setRb _ _ := rfl
  setStatus _ _ := rfl
  enterFault s e o := by
    by_cases h : s.status = .faulted
    · rw [enterFault_of_faulted s e o h, enterFault_of_faulted (feedTail more s) e o h]
    · simp only [enterFault, h, if_false, feedTail]

/-- OUT does not look at the queue. -/
theorem outputEffect_feedTail (more : List Int) (a : Param) (s : State) :
    outputEffect a (feedTail more s) = (outputEffect a s).map (feedTail more) := by
  have hg := feedTail_transparent more
  unfold outputEffect
  rw [hg.readOperand_eq, hg.advancedIp_eq]
  rcases readOperand s a with e | x
  · rfl
  · have hspace : checkOutSpace (feedTail more s) x = checkOutSpace s x := rfl
    simp only [hspace]
    rcases checkOutSpace s x with e | _
    · rfl
    · rcases advancedIp s BaseOp.out.width with e | ip <;> rfl

/-- An IN that does not suspend takes the head of the queue, or faults, whatever stands at the tail. -/
theorem inputEffect_feedTail (more : List Int) (dst : Param) {s t : State}
    (ht : t.status ≠ .awaitingInput) :
    (inputEffect dst s = .ok t → inputEffect dst (feedTail more s) = .ok (feedTail more t)) ∧
      ∀ e, inputEffect dst s = .error e → inputEffect dst (feedTail more s) = .error e := by
  have hg := feedTail_transparent more
  refine ⟨fun h => ?_, fun e h => ?_⟩
  · obtain ⟨d, hd, hip, ⟨-, rfl⟩ | ⟨v, rest, hqueue, rfl⟩⟩ := inputEffect_ok.1 h
    · exact absurd (suspend_status s) ht
    · have hqueue' : (feedTail more s).inQ = v :: (rest ++ more) := by simp [feedTail, hqueue]
      exact inputEffect_ok.2
        ⟨d, (hg.writeAddress_eq s _ dst).trans hd, hip, .inr ⟨v, rest ++ more, hqueue', rfl⟩⟩
  · rw [inputEffect_error] at h ⊢
    rwa [hg.writeAddress_eq, hg.advancedIp_eq]

theorem step_feedTail {s t : State} (more : List Int) (ht : t.status ≠ .awaitingInput)
    (h : step s = .next t) : step (feedTail more s) = .next (feedTail more t) := by
  have hg := feedTail_transparent more
  refine hg.step_commutes (fun i _ => ?_) h
  cases i with
  | inp dst => exact inputEffect_feedTail more dst ht
  | out a => exact map_cases (outputEffect_feedTail more a s)
  | _ => exact map_cases (hg.effectOf_map s (by simp) (by simp))

/-- Settles O43: a run that ends elsewhere has suspended nowhere, since a suspended core stays so. -/
theorem inputsAtTheTailDoNotChangeTheRunSoFar : Obligations.InputsAtTheTailDoNotChangeTheRunSoFar := by
  intro n s t more h ht
  show Host.Core.run Sys2Proof.core n (feedTail more s) = .next (feedTail more t)
  induction n generalizing s with
  | zero => rw [run_zero.1 h]; rfl
  | succ n ih =>
    obtain ⟨u, hu, hrest⟩ := run_succ.1 h
    have hu' : u.status ≠ .awaitingInput := fun hsuspended => by
      obtain rfl := run_idle (by simp [hsuspended]) hrest
      exact ht hsuspended
    exact run_succ.2 ⟨_, step_feedTail more hu' hu, ih u hrest⟩

end Sys2Proof.Machine
end

