-- ==== Sys2Proof/Proofs/Invariant.lean ====
section
/-! The invariant of the core (Safety.lean): each update an instruction or a command makes keeps it, so
every step and every command does. -/

namespace Sys2Proof

theorem Config.fits_zero {cfg : Config} (h : cfg.wf = true) : cfg.fits 0 = true :=
  Machine.fits_truthCell h false

theorem Config.within_iff {depth : Option Nat} {length : Nat} :
    Config.within depth length = true ↔ ∀ d, depth = some d → length ≤ d := by
  unfold Config.within
  cases depth <;> simp

/-- There is room for one more where the queue is not full. -/
theorem Config.within_succ {depth : Option Nat} {length : Nat}
    (h : Config.full depth length = false) : Config.within depth (length + 1) = true :=
  Config.within_iff.2 fun d hd => Config.not_full_iff.1 h d hd

end Sys2Proof

namespace Sys2Proof.Machine

/-! ### Every value a fetch or an operand gives fits -/

namespace State.Inv

variable {s : State} (hs : s.Inv)
include hs

theorem fits_read (a : Nat) : s.cfg.fits (s.mem.read a) = true := by
  by_cases hzero : s.mem.read a = 0
  · rw [hzero]
    exact Config.fits_zero hs.cfg_wf
  · exact (hs.mem_fits _ ((Memory.mem_iff_read hs.mem_wf (c := (a, s.mem.read a))).2 ⟨rfl, hzero⟩)).2

theorem fits_memRead {a v : Int} (h : memRead s a = .ok v) : s.cfg.fits v = true := by
  obtain ⟨n, -, rfl⟩ := memRead_ok.1 h
  exact hs.fits_read n

theorem fits_readOperand {p : Param} {v : Int} (hraw : s.cfg.fits p.raw = true)
    (h : readOperand s p = .ok v) : s.cfg.fits v = true := by
  rcases readOperand_ok.1 h with ⟨-, hread⟩ | ⟨-, rfl⟩ | ⟨-, -, hread⟩
  · exact hs.fits_memRead hread
  · exact hraw
  · exact hs.fits_memRead hread

/-- The raw parameters of a fetched instruction are cells of memory. -/
theorem fits_params {i : Instr} (h : fetchInstr s = .ok i) :
    ∀ p ∈ i.params, s.cfg.fits p.raw = true := by
  obtain ⟨c, f, raws, -, hop, hcells, rfl⟩ := fetchInstr_ok.1 h
  obtain ⟨hlength, hread⟩ := fetchCells_ok hcells
  intro p hp
  have hraw : p.raw ∈ raws := assemble_raws hlength ▸ List.mem_map_of_mem hp
  obtain ⟨k, hk, hcell⟩ := List.getElem_of_mem hraw
  rw [← hcell]
  exact hs.fits_memRead (hread k hk)

/-! ### Every update keeps the invariant -/

theorem store {a : Nat} {v : Int} (ha : s.cfg.inRange a = true) (hv : s.cfg.fits v = true) :
    (s.store a v).Inv :=
  { hs with
    mem_wf := Memory.write_wf hs.mem_wf a v
    mem_fits := fun c hc => by
      rcases Memory.mem_write hc with hold | ⟨rfl, -⟩
      · exact hs.mem_fits c hold
      · exact ⟨ha, hv⟩ }

theorem setIp {v : Int} (hv : s.cfg.fits v = true) : (s.setIp v).Inv := { hs with ip_fits := hv }

theorem setRb {v : Int} (hv : s.cfg.fits v = true) : (s.setRb v).Inv := { hs with rb_fits := hv }

theorem setStatus {v : Status} (hold : s.status ≠ .faulted) (hnew : v ≠ .faulted) :
    (s.setStatus v).Inv :=
  { hs with
    record_clear := fun _ => hs.record_clear hold
    record_cause := fun h => absurd h hnew }

theorem setInQ {q : List Int} (hfits : ∀ v ∈ q, s.cfg.fits v = true)
    (hdepth : Config.within s.cfg.inDepth q.length = true) : (s.setInQ q).Inv :=
  { hs with inQ_fits := hfits, inQ_depth := hdepth }

/-- A FEED that is accepted adds a value that fits to a queue that is not full. -/
theorem feed {v : Int} (hv : s.cfg.fits v = true)
    (hspace : Config.full s.cfg.inDepth s.inQ.length = false) : (s.setInQ (s.inQ ++ [v])).Inv := by
  refine hs.setInQ (fun w hw => ?_) ?_
  · rcases List.mem_append.1 hw with hold | hnew
    · exact hs.inQ_fits w hold
    · rwa [List.mem_singleton.1 hnew]
  · rw [List.length_append]
    exact Config.within_succ hspace

/-- An IN takes the head of the queue. -/
theorem dequeue {v : Int} {rest : List Int} (hqueue : s.inQ = v :: rest) : (s.setInQ rest).Inv := by
  refine hs.setInQ (fun w hw => hs.inQ_fits w (by simp [hqueue, hw]))
    (Config.within_iff.2 fun d hd => ?_)
  have hbefore := Config.within_iff.1 hs.inQ_depth d hd
  rw [hqueue] at hbefore
  exact Nat.le_of_succ_le hbefore

/-- An OUT adds a value that fits to a log that is not full. -/
theorem pushOut {v : Int} (hv : s.cfg.fits v = true)
    (hspace : Config.full s.cfg.outDepth (s.outLog.length - s.outCur) = false) : (s.pushOut v).Inv :=
  { hs with
    outLog_fits := fun w hw => by
      rcases List.mem_append.1 hw with hold | hnew
      · exact hs.outLog_fits w hold
      · rwa [List.mem_singleton.1 hnew]
    cursor := by
      rw [pushOut_outLog, List.length_append]
      exact Nat.le_add_right_of_le hs.cursor
    out_depth := by
      rw [pushOut_outLog, List.length_append, List.length_singleton, pushOut_outCur,
        Nat.sub_add_comm hs.cursor]
      exact Config.within_succ hspace }

theorem enterFault {e : FaultReport} (o : FaultOrigin) (he : hasFault s.cfg e.cause = true) :
    (enterFault e o s).Inv := by
  by_cases hfaulted : s.status = .faulted
  · rwa [enterFault_of_faulted s e o hfaulted]
  · rw [(faultEntryRecordsTheFirstFault s e o).1 hfaulted]
    exact { hs with
      record_clear := fun h => absurd rfl h
      record_cause := fun _ => he }

/-- A clearing TAKE leaves nothing untaken (60_exceptions.md R163). -/
theorem clearTaken : State.Inv { s with outCur := s.outLog.length } :=
  { hs with
    cursor := le_refl _
    out_depth := Config.within_iff.2 fun d _ => by
      show s.outLog.length - s.outLog.length ≤ d
      omega }

/-- What a LOAD that is accepted leaves (70_reset_and_hazards.md R180). -/
theorem loaded {p : List Int} (hfits : p.all s.cfg.fits = true)
    (hholds : s.cfg.holdsProgram p.length = true) : (State.loaded s.cfg p).Inv where
  cfg_wf := hs.cfg_wf
  mem_wf := Memory.ofCells_wf 0 p
  mem_fits := fun c hc => by
    obtain ⟨-, -, hbelow, hmem⟩ := Memory.ofCells_ge c hc
    refine ⟨Config.inRange_iff.2 fun limit hlimit => ?_, List.all_eq_true.1 hfits _ hmem⟩
    have hlength := Config.holdsProgram_iff.1 hholds limit hlimit
    omega
  ip_fits := Config.fits_zero hs.cfg_wf
  rb_fits := Config.fits_zero hs.cfg_wf
  inQ_fits := fun _ hv => absurd hv List.not_mem_nil
  outLog_fits := fun _ hv => absurd hv List.not_mem_nil
  cursor := le_refl 0
  inQ_depth := Config.within_iff.2 fun _ _ => Nat.zero_le _
  out_depth := Config.within_iff.2 fun _ _ => Nat.zero_le _
  record_clear := fun _ => ⟨rfl, rfl, rfl, rfl⟩
  record_cause := nofun

end State.Inv

/-! ### Steps and commands -/

theorem Completes.inv {s t : State} {i : Instr} (hs : s.Inv) (hrun : s.status = .running)
    (hfetch : fetchInstr s = .ok i) (h : Completes s i t) : t.Inv := by
  have hraw := hs.fits_params hfetch
  have hold : s.status ≠ .faulted := by simp [hrun]
  cases h with
  | stores _ haddr _ hfits hip =>
    exact (hs.store (storeAddress_inRange haddr) (hfits hs.cfg_wf)).setIp hip
  | @inputs dst d v rest haddr hqueue hip =>
    have hv : s.cfg.fits v = true := hs.inQ_fits v (by simp [hqueue])
    exact ((hs.dequeue hqueue).store (storeAddress_inRange (s := s) haddr) hv).setIp hip
  | suspends => exact hs.setStatus hold (by simp)
  | @outputs a x hx hspace hip =>
    exact (hs.pushOut (hs.fits_readOperand (hraw a (by simp [Instr.params])) hx) hspace).setIp hip
  | @jumps _ a target x y hfires _ hy =>
    have htarget : target ∈ i.params := by rcases hfires with ⟨rfl, -⟩ | ⟨rfl, -⟩ <;> simp [Instr.params]
    exact hs.setIp (hs.fits_readOperand (hraw target htarget) hy)
  | passes _ hip => exact hs.setIp hip
  | adjusts _ hrb hip => exact (hs.setRb hrb).setIp hip
  | halts => exact hs.setStatus hold (by simp)

/-- Settles O46: each outcome of the step keeps the invariant. -/
theorem everyStepKeepsTheInvariant : Obligations.EveryStepKeepsTheInvariant := by
  intro s t hs h
  rcases step_outcome h with ⟨-, rfl⟩ | ⟨-, e, hkind, rfl⟩ | ⟨hrun, i, hfetch, hdone⟩
  · exact hs
  · exact hs.enterFault .core hkind
  · exact hdone.inv hs hrun hfetch

/-- Settles O47: each command's change keeps the invariant, and RUN's loop keeps what steps keep. -/
theorem everyCommandKeepsTheInvariant : Obligations.EveryCommandKeepsTheInvariant := by
  intro s t fuel c r hs h
  rcases (command_cases h).2 with ⟨p, -, rfl | ⟨hfits, hholds, rfl⟩⟩ | ⟨v, -, rfl | ⟨hspace, hv, rfl⟩⟩ |
    ⟨-, rfl | ⟨hwait, hloop⟩⟩ | ⟨_, -, rfl | rfl⟩ | ⟨-, rfl⟩ | ⟨-, e, hkind, rfl⟩ |
    ⟨a, v, -, rfl | ⟨n, hcheck, hv, rfl⟩⟩
  any_goals exact hs
  · exact hs.loaded hfits hholds
  · exact hs.feed hv hspace
  · have hold : s.status ≠ .faulted := by rcases hwait with hw | hw <;> simp [hw]
    exact runLoop_preserves everyStepKeepsTheInvariant (hs.setStatus hold (by simp)) hloop
  · exact hs.clearTaken
  · exact hs.enterFault .host hkind
  · obtain ⟨-, rfl, hin⟩ := checkAddress_ok.1 hcheck
    exact hs.store hin hv

/-- Settles O45: the reset state is closed data, and every field has the value of R38. -/
theorem invariantHoldsAtReset : Obligations.InvariantHoldsAtReset := by
  refine ⟨?_, rfl, fun _ => rfl, rfl, rfl, ⟨rfl, rfl, rfl, rfl⟩, rfl, rfl, rfl, rfl⟩
  exact {
    cfg_wf := rfl
    mem_wf := Memory.ofCells_wf 0 []
    mem_fits := fun _ hc => absurd hc List.not_mem_nil
    ip_fits := rfl
    rb_fits := rfl
    inQ_fits := fun _ hv => absurd hv List.not_mem_nil
    outLog_fits := fun _ hv => absurd hv List.not_mem_nil
    cursor := le_refl 0
    inQ_depth := rfl
    out_depth := rfl
    record_clear := fun _ => ⟨rfl, rfl, rfl, rfl⟩
    record_cause := nofun }

end Sys2Proof.Machine
end
